-- ==== Sys2Proof/Config.lean ====
section
/-! DEFINITION. What the implementation fixes and the spec leaves open: the size of data memory. The spec
has no undefined value, so there is no free value here. -/

namespace Sys2Proof

/-- `MEM_SIZE` of the machine that `State.reset` describes (R7, U1). DESIGN CHOICE (log entry 2): the spec
gives no value and forbids assuming one (N3), so the constant has no body and no proof can use a value of it.
Every meaning reads the size from the state, so claims over all states hold for every size. -/
opaque Config.memSize : Nat

end Sys2Proof
end

