-- ==== Sys2Proof/Word.lean ====
section
/-! DEFINITION. The one bit-vector type of the model that is not an opcode: the byte of the
instruction stream (R36). Data cells are mathematical integers and addresses are natural numbers or
integers (R10, R11), so the model has no machine word. -/

namespace Sys2Proof

/-- One location of the instruction stream: an 8-bit byte (R36). -/
abbrev Byte := BitVec 8

end Sys2Proof
end

