-- ==== Sys2Proof/Syntax.lean ====
section
/-! DEFINITION. The four instructions (R1), one constructor per row of spec/opcode_table.json. -/

namespace Sys2Proof

/-- The whole ISA (R1, R5). Every operand field is an unsigned integer (R16), so a field is a natural
number; that it fits its width is `Instr.wellFormed` (R83). Fields stand in the order of R64 to R67. -/
inductive Instr where
  /-- LOAD_CONST const addr (R64, R107). -/
  | loadConst (constant address : Nat)
  /-- GTE offset1 addr1 addr2 res offset2 (R65, R110). -/
  | gte (offset1 addr1 addr2 resAddr offset2 : Nat)
  /-- WRITE_MEM src dst (R66, R109). -/
  | writeMem (srcAddr dstAddr : Nat)
  /-- READ_MEM offset src dst (R67, R108). -/
  | readMem (offset srcAddr dstAddr : Nat)
  deriving DecidableEq, Repr

end Sys2Proof
end

