-- ==== Sys2Proof/WellFormed.lean ====
section
/-! DEFINITION. Range validation of an instruction's operands (R9, R16, R83): a field of width w holds a
value in [0, 2^w), and construction with any other value fails with ValidationError, never clamped,
wrapped or truncated. The error is the assembler's; the block never raises it (R118). -/

namespace Sys2Proof

/-- One operand of an instruction as the encoder sees it: its name, its width in bits and its value. -/
structure Operand where
  name  : String
  width : Nat
  value : Nat
  deriving DecidableEq, Repr

/-- The value fits the field's width (R16). -/
def Operand.fits (o : Operand) : Bool := decide (o.value < 2 ^ o.width)

/-- The operands with their widths (R9), in field order. -/
def Instr.operands : Instr → List Operand
  | .loadConst constant address => [⟨"constant", 11, constant⟩, ⟨"address", 26, address⟩]
  | .gte offset1 addr1 addr2 resAddr offset2 =>
    [⟨"offset1", 8, offset1⟩, ⟨"addr1", 26, addr1⟩, ⟨"addr2", 26, addr2⟩,
     ⟨"res_addr", 26, resAddr⟩, ⟨"offset2", 8, offset2⟩]
  | .writeMem srcAddr dstAddr => [⟨"src_addr", 26, srcAddr⟩, ⟨"dst_addr", 26, dstAddr⟩]
  | .readMem offset srcAddr dstAddr =>
    [⟨"offset", 8, offset⟩, ⟨"src_addr", 26, srcAddr⟩, ⟨"dst_addr", 26, dstAddr⟩]

/-- Every operand fits: the instruction is validly constructed (R83). -/
def Instr.wellFormed (i : Instr) : Bool := i.operands.all Operand.fits

/-- ValidationError (R83). It holds the offending operand, whose allowed range is `0` to `2 ^ width - 1`: the source
says that the error reports the offending value and the allowed range (N13). That it also holds the operand's name is
the model's (DESIGN CHOICE, log entry 13). -/
structure ValidationError where
  operand : Operand
  deriving DecidableEq, Repr

/-- Construction (R83): the instruction unchanged if every operand fits, else ValidationError. Which operand is
reported when more than one does not fit is not in the spec; the model reports the first in field order
(DESIGN CHOICE, log entry 13). -/
def Instr.validate (i : Instr) : Except ValidationError Instr :=
  match i.operands.find? (fun o => !o.fits) with
  | none => .ok i
  | some o => .error ⟨o⟩

end Sys2Proof
end

