-- ==== Sys2Proof/Decode.lean ====
section
/-! DEFINITION. The decoder (R62 to R81), total on any byte stream and any PC, and after it the reference
encoder (R63, R82, R83) and the host's view of one table word. -/

namespace Sys2Proof

/-! ### Opcodes and lengths -/

/-- The four assigned opcodes (R73). -/
inductive Opcode where
  | loadConst | gte | writeMem | readMem
  deriving DecidableEq, Repr

/-- The 7-bit opcode value (R62, R73). -/
def Opcode.code : Opcode → BitVec 7
  | .loadConst => 111#7
  | .gte       => 68#7
  | .writeMem  => 101#7
  | .readMem   => 40#7

/-- The length in bytes, which depends only on the opcode (R62, R74). -/
def Opcode.length : Opcode → Nat
  | .loadConst => 6
  | .gte       => 13
  | .writeMem  => 8
  | .readMem   => 9

/-- How many low bits of the instruction carry fields; the bits above are padding (R62). -/
def Opcode.usedBits : Opcode → Nat
  | .loadConst => 44
  | .gte       => 101
  | .writeMem  => 59
  | .readMem   => 67

/-- Dispatch on the 7-bit opcode value: four legal arms and one default (R73, R95). -/
def Opcode.ofBits (op : BitVec 7) : Option Opcode :=
  match op.toNat with
  | 40  => some .readMem
  | 68  => some .gte
  | 101 => some .writeMem
  | 111 => some .loadConst
  | _   => none

/-- The opcode of an instruction. -/
def Instr.opcode : Instr → Opcode
  | .loadConst _ _   => .loadConst
  | .gte _ _ _ _ _   => .gte
  | .writeMem _ _    => .writeMem
  | .readMem _ _ _   => .readMem

/-- The fixed length of an instruction in bytes (R62). -/
def Instr.length (i : Instr) : Nat := i.opcode.length

/-! ### Bits and bytes -/

/-- `v[hi:lo]` of R13. -/
def slice (v hi lo : Nat) : Nat := v / 2 ^ lo % 2 ^ (hi - lo + 1)

/-- The little-endian integer formed from bytes (R12): the first byte is the least significant. -/
def leValue : List Byte → Nat
  | [] => 0
  | b :: bs => b.toNat + 256 * leValue bs

/-- The `n` little-endian bytes of a value (R63). -/
def leBytes : Nat → Nat → List Byte
  | 0, _ => []
  | n + 1, w => BitVec.ofNat 8 w :: leBytes n (w / 256)

/-- `W` of R12: the `n` bytes of the stream at `pc`, read as one integer. -/
def fetchWord (B : List Byte) (pc n : Nat) : Nat := leValue ((B.drop pc).take n)

/-- `B[PC][6:0]` (R72): bit 7 of the byte is not part of the opcode. -/
def opcodeAt (B : List Byte) (pc : Nat) : BitVec 7 := (B.getD pc 0).setWidth 7

/-! ### The decoder -/

/-- The instruction with this opcode whose bits are `W`: the field positions of R64 to R67. Padding
bits are not examined (R78), and every field is zero-extended (R75). -/
def decodeFields (o : Opcode) (W : Nat) : Instr :=
  match o with
  | .loadConst => .loadConst (slice W 17 7) (slice W 43 18)
  | .gte => .gte (slice W 14 7) (slice W 40 15) (slice W 66 41) (slice W 92 67) (slice W 100 93)
  | .writeMem => .writeMem (slice W 32 7) (slice W 58 33)
  | .readMem => .readMem (slice W 14 7) (slice W 40 15) (slice W 66 41)

/-- What the decoder finds at a PC. For `PC < L` it is one of R81's three results; `endOfStream` is the
case `PC >= L`, in which nothing is fetched and the step halts (R90, R94). -/
inductive DecodeResult where
  /-- `PC >= L`. -/
  | endOfStream
  /-- No instruction has this opcode (R77). -/
  | unknownOpcode (op : BitVec 7)
  /-- A legal opcode with fewer bytes left than its length (R80). -/
  | truncated (op : BitVec 7) (needed available : Nat)
  /-- A decoded instruction with its length in bytes. -/
  | instr (i : Instr) (n : Nat)
  deriving DecidableEq, Repr

/-- `decode(B, PC)` of R81, with the halt check of R92 in front (R119 gives the order of the checks). -/
def decode (B : List Byte) (pc : Nat) : DecodeResult :=
  if B.length ≤ pc then .endOfStream
  else
    match Opcode.ofBits (opcodeAt B pc) with
    | none => .unknownOpcode (opcodeAt B pc)
    | some o =>
      if B.length < pc + o.length then .truncated (opcodeAt B pc) o.length (B.length - pc)
      else .instr (decodeFields o (fetchWord B pc o.length)) o.length

/-! ### The encoder -/

/-- The fields of an instruction with their widths, opcode first, in the order of R64 to R67. -/
def Instr.layout : Instr → List (Nat × Nat)
  | .loadConst constant address => [(7, 111), (11, constant), (26, address)]
  | .gte offset1 addr1 addr2 resAddr offset2 =>
    [(7, 68), (8, offset1), (26, addr1), (26, addr2), (26, resAddr), (8, offset2)]
  | .writeMem srcAddr dstAddr => [(7, 101), (26, srcAddr), (26, dstAddr)]
  | .readMem offset srcAddr dstAddr => [(7, 40), (8, offset), (26, srcAddr), (26, dstAddr)]

/-- R63: the fields OR-ed together, each shifted to its bit offset, which is the running sum of the
widths before it. -/
def packFields : List (Nat × Nat) → Nat
  | [] => 0
  | (w, v) :: fs => v ||| (packFields fs <<< w)

/-- The instruction as one unsigned integer, padding bits 0 (R63). -/
def encodeWord (i : Instr) : Nat := packFields i.layout

/-- `encode(i)`: the little-endian bytes of `encodeWord i` (R63, R83). -/
def encode (i : Instr) : List Byte := leBytes i.length (encodeWord i)

/-- A program's binary: the encodings in list order, nothing between them (R82). -/
def encodeProgram : List Instr → List Byte
  | [] => []
  | i :: is => encode i ++ encodeProgram is

/-! ### One word of the opcode table -/

/-- The longest instruction's length in bytes (Gte, R62). -/
def maxLength : Nat := 13

/-- The bytes of an instruction whose bits are `w`, all bits from `nbits` on being 0, as the stream holds
them: at least as many as the longest instruction has. -/
def tableBytes (nbits w : Nat) : List Byte := leBytes (max maxLength (nbits / 8)) (w % 2 ^ nbits)

/-- The instruction the decoder reads from a stream that holds that word at offset 0. -/
def decodeTableWord (nbits w : Nat) : Option Instr :=
  match decode (tableBytes nbits w) 0 with
  | .instr i _ => some i
  | .endOfStream => none
  | .unknownOpcode _ => none
  | .truncated _ _ _ => none

end Sys2Proof
end

