-- ==== Sys2Proof/Machine/State.lean ====
section
/-! DEFINITION. The machine's state (R17 to R35), the reasons a step can stop, and reset (R134 to R137). -/

namespace Sys2Proof.Machine

/-- The run state (R30, R90). -/
inductive RunState where
  /-- The block can step. -/
  | running
  /-- The run ended because `PC >= L`; terminal. -/
  | halted
  /-- The run ended at a fatal error; terminal. -/
  | faulted
  deriving DecidableEq, Repr

/-- The kind of a data access, recorded with OutOfRangeAddress (R113). -/
inductive AccessKind where
  | read | write
  deriving DecidableEq, Repr

/-- The cause of a fatal error with the info recorded for it (R113). -/
inductive FaultInfo where
  /-- Code 1: the 7-bit opcode value. -/
  | unknownOpcode (op : BitVec 7)
  /-- Code 2: the failing address and what the access was. -/
  | outOfRangeAddress (address : Int) (kind : AccessKind)
  /-- Code 3: the opcode, the bytes it needs and the bytes left. -/
  | truncatedInstruction (op : BitVec 7) (needed available : Nat)
  deriving DecidableEq, Repr

/-- The fault record (R31): the PC of the faulting instruction and the cause with its info. The cause code
is computed from the info (`FaultRecord.code`), so the two cannot disagree. -/
structure FaultRecord where
  pc   : Nat
  info : FaultInfo
  deriving DecidableEq, Repr

/-- The configuration of a run (R7, R8), taken at reset (R135). It is not architectural state (R17) and no
step writes it. It stands in `State` because `step` takes a state alone. -/
structure RunConfig where
  /-- `MEM_SIZE`: the number of data-memory cells. -/
  memSize : Nat
  /-- `B`: the program binary; its length is `L`. -/
  program : List Byte
  deriving DecidableEq, Repr

/-- Data memory: (address, value) pairs; an unlisted address reads as 0 (R23). The canonical form is
`Memory.wf`. A cell holds a mathematical integer (R10). -/
abbrev Memory := List (Nat × Int)

/-- The state: R17's four parts, and the configuration of the run. -/
structure State where
  /-- Data memory `M` (R22). -/
  mem      : Memory
  /-- The program counter `PC`, a byte offset into `B` (R28). -/
  pc       : Nat
  /-- The run state `state` (R30). -/
  runState : RunState
  /-- The fault record `fault` (R31). -/
  fault    : Option FaultRecord
  /-- `MEM_SIZE` and `B`, fixed for the run (R33, R35, R43). -/
  cfg      : RunConfig
  deriving DecidableEq, Repr

/-- Why a step gives no next state. The spec's own errors (R112) are not here: they are taken, as a next
state in `RunState.faulted` (R121). -/
inductive Fault where
  /-- Raised by `step` in a Halted state: no transition exists (R91, R100; U15 says `stuck`). Safe. -/
  | alreadyHalted
  /-- Raised by `step` in a Faulted state: no transition exists (R91, R100; U15 says `stuck`). Safe. -/
  | alreadyFaulted
  deriving DecidableEq, Repr

/-- Why a step is refused. -/
inductive Refusal where
  /-- For an instruction without a meaning in `exec`; no arm of `exec` answers it. Safe. -/
  | notModelled (mnemonic : String)
  deriving DecidableEq, Repr

/-- Reset with a configuration (R34, R135, R137): every cell 0, `PC` 0, Running, no fault. The same from
any earlier state: nothing of an earlier run is kept. -/
def State.resetWith (memSize : Nat) (program : List Byte) : State where
  mem      := []
  pc       := 0
  runState := .running
  fault    := none
  cfg      := { memSize := memSize, program := program }

/-- The machine right after reset with no program placed: `MEM_SIZE` is the unevaluated `Config.memSize`
(DESIGN CHOICE, log entry 2) and the stream is empty (DESIGN CHOICE, log entry 3). -/
def State.reset : State := State.resetWith Config.memSize []

end Sys2Proof.Machine
end

