-- ==== Sys2Proof/Machine/Flags.lean ====
section
/-! DEFINITION. The block has no flags (R19). What stands in their place is the ALU's two value operations
(R111), both exact on mathematical integers: the address adder and the comparison, whose result 0 or 1 is an
ordinary cell value. -/

namespace Sys2Proof.Machine

/-- The effective-address adder (R106): base plus zero-extended offset, no wrap. -/
def aluAdd (base : Int) (offset : Nat) : Int := base + offset

/-- The comparator of Gte (R110): 1 if `op1 >= op2`, else 0, in the order of the integers (R111). -/
def aluGe (op1 op2 : Int) : Int := if op2 ≤ op1 then 1 else 0

end Sys2Proof.Machine
end

