-- ==== Sys2Proof/Machine/Ops.lean ====
section
/-! DEFINITION. The shared operations over memory, PC and run state: bounds-checked cell accesses (R13, R51),
the completion of an instruction (R92, R98), the halt transition (R94) and fault entry (R121). No operation
returns from a fault: the block has no such instruction (R105, R122). -/

namespace Sys2Proof.Machine

/-! ### Data memory -/

/-- `M[a]`: the listed value, else 0 (R23). -/
def Memory.cell : Memory → Nat → Int
  | [], _ => 0
  | (b, v) :: m, a => if b = a then v else Memory.cell m a

/-- Removes every entry for an address. -/
def Memory.erase : Memory → Nat → Memory
  | [], _ => []
  | (b, v) :: m, a => if b = a then Memory.erase m a else (b, v) :: Memory.erase m a

/-- Places an entry before the first higher address. -/
def Memory.insert : Memory → Nat → Int → Memory
  | [], a, v => [(a, v)]
  | (b, w) :: m, a, v => if a < b then (a, v) :: (b, w) :: m else (b, w) :: Memory.insert m a v

/-- `M[a] := v`, keeping the canonical form: writing 0 removes the entry. -/
def Memory.store (m : Memory) (a : Nat) (v : Int) : Memory :=
  if v = 0 then Memory.erase m a else Memory.insert (Memory.erase m a) a v

/-- The canonical form: addresses strictly rising and no entry equal to what an unlisted address reads as. -/
def Memory.wf : Memory → Bool
  | [] => true
  | (a, v) :: m => decide (v ≠ 0) && m.all (fun c => decide (a < c.1)) && Memory.wf m

/-! ### Bounds-checked accesses -/

/-- `0 <= a < MEM_SIZE` (R7, R51). -/
def State.inRange (s : State) (a : Int) : Bool := decide (0 ≤ a ∧ a < s.cfg.memSize)

/-- `M[a]` for an address as the instructions form it (an `Int`, R106), without the bounds check. -/
def State.cellAt (s : State) (a : Int) : Int := Memory.cell s.mem a.toNat

/-- A data access outside `[0, MEM_SIZE)`: the failing address and the kind (R117). -/
structure AccessError where
  address : Int
  kind    : AccessKind
  deriving DecidableEq, Repr

/-- The one write an instruction ends with (R24, R92). -/
structure CellWrite where
  addr  : Nat
  value : Int
  deriving DecidableEq, Repr

/-- `MemRead(a, 1)` (R13). -/
def State.memRead (s : State) (a : Int) : Except AccessError Int :=
  if s.inRange a then .ok (s.cellAt a) else .error ⟨a, .read⟩

/-- `MemWrite(a, 1, v)` (R13): the write to perform; `State.commit` performs it, since an instruction's
write comes last (R97). -/
def State.memWrite (s : State) (a v : Int) : Except AccessError CellWrite :=
  if s.inRange a then .ok ⟨a.toNat, v⟩ else .error ⟨a, .write⟩

/-! ### Ends of a step -/

/-- The cause code (R113). -/
def FaultInfo.code : FaultInfo → Nat
  | .unknownOpcode _ => 1
  | .outOfRangeAddress _ _ => 2
  | .truncatedInstruction _ _ _ => 3

/-- The code of a fault record (R31). -/
def FaultRecord.code (r : FaultRecord) : Nat := FaultInfo.code r.info

/-- Fault entry (R121): exactly `state` and `fault` change; the record holds the faulting PC. -/
def State.enterFault (s : State) (info : FaultInfo) : State :=
  { s with runState := .faulted, fault := some { pc := s.pc, info := info } }

/-- The halt transition (R94): only `state` changes. -/
def State.halt (s : State) : State := { s with runState := .halted }

/-- The end of an instruction of `n` bytes (R92): its write and the advance of PC, or the fault of its first
failing access with neither (R97, R99). -/
def State.commit (s : State) (n : Nat) (r : Except AccessError CellWrite) : State :=
  match r with
  | .ok w => { s with mem := Memory.store s.mem w.addr w.value, pc := s.pc + n }
  | .error e => s.enterFault (.outOfRangeAddress e.address e.kind)

/-! ### Placing an instruction where the machine fetches -/

/-- The stream with `bytes` at offset `pc`, lengthened with zero bytes where it is too short. -/
def placeBytes (B : List Byte) (pc : Nat) (bytes : List Byte) : List Byte :=
  B.take pc ++ List.replicate (pc - B.length) 0 ++ bytes ++ B.drop (pc + bytes.length)

/-- The load from outside that stands for placing a program before a run (R135, R138): the bytes at `PC`,
and the run state Running with no fault, without which the machine fetches nothing (R91). -/
def State.loadAtPc (s : State) (bytes : List Byte) : State :=
  { s with
    cfg := { s.cfg with program := placeBytes s.cfg.program s.pc bytes }
    runState := .running
    fault := none }

end Sys2Proof.Machine
end

