-- ==== Sys2Proof/Machine/Operands.lean ====
section
/-! DEFINITION. The operand forms (R76): an immediate is its field's value; a direct address is the field as it
stands; an indirect operand goes through a base cell. -/

namespace Sys2Proof.Machine

/-- A direct address: the field used as a data address as it stands (R38). -/
def directAddr (field : Nat) : Int := field

/-- `EA(base, offset)` of R106: the base cell is read under the bounds check; the sum is checked where it is
used. -/
def State.effectiveAddr (s : State) (base offset : Nat) : Except AccessError Int := do
  let b ← s.memRead (directAddr base)
  return aluAdd b offset

/-- The effective address without the check of the base cell, for the access table (R116). -/
def State.rawEffectiveAddr (s : State) (base offset : Nat) : Int :=
  aluAdd (s.cellAt (directAddr base)) offset

end Sys2Proof.Machine
end

