-- ==== Sys2Proof/Machine/Compare.lean ====
section
/-! DEFINITION. Gte (42_compare.md). Operand 1 and the result go through base cells, operand 2 is direct; the
asymmetry is normative (R76, 90_conflicts.md C1). -/

namespace Sys2Proof.Machine

/-- The accesses of Gte in the order of R110: both base cells, the two operands, then the write. -/
def gteRule (offset1 addr1 addr2 resAddr offset2 : Nat) (s : State) :
    Except AccessError CellWrite := do
  let ea1 ← s.effectiveAddr addr1 offset1
  let ear ← s.effectiveAddr resAddr offset2
  let op1 ← s.memRead ea1
  let op2 ← s.memRead (directAddr addr2)
  s.memWrite ear (aluGe op1 op2)

/-- GTE (R110). -/
def execGte (offset1 addr1 addr2 resAddr offset2 : Nat) (s : State) :
    Host.Outcome State Fault Refusal :=
  .next (s.commit (Opcode.length .gte) (gteRule offset1 addr1 addr2 resAddr offset2 s))

end Sys2Proof.Machine
end

