-- ==== Sys2Proof/Machine/DataTransfer.lean ====
section
/-! DEFINITION. LoadConst, ReadMem and WriteMem (41_data_transfer.md). Each rule computes its reads in order
and ends with its one write; `State.commit` then performs the write and advances PC, or enters the fault. -/

namespace Sys2Proof.Machine

/-- The accesses of LoadConst (R107): one write of the immediate to a direct address. -/
def loadConstRule (constant address : Nat) (s : State) : Except AccessError CellWrite :=
  s.memWrite (directAddr address) constant

/-- LOAD_CONST (R107). -/
def execLoadConst (constant address : Nat) (s : State) : Host.Outcome State Fault Refusal :=
  .next (s.commit (Opcode.length .loadConst) (loadConstRule constant address s))

/-- The accesses of ReadMem (R108): base cell, source cell, then the write to a direct address. -/
def readMemRule (offset srcAddr dstAddr : Nat) (s : State) : Except AccessError CellWrite := do
  let ea ← s.effectiveAddr srcAddr offset
  let v ← s.memRead ea
  s.memWrite (directAddr dstAddr) v

/-- READ_MEM (R108). -/
def execReadMem (offset srcAddr dstAddr : Nat) (s : State) : Host.Outcome State Fault Refusal :=
  .next (s.commit (Opcode.length .readMem) (readMemRule offset srcAddr dstAddr s))

/-- The accesses of WriteMem (R109): a copy between two direct addresses. -/
def writeMemRule (srcAddr dstAddr : Nat) (s : State) : Except AccessError CellWrite := do
  let v ← s.memRead (directAddr srcAddr)
  s.memWrite (directAddr dstAddr) v

/-- WRITE_MEM (R109). -/
def execWriteMem (srcAddr dstAddr : Nat) (s : State) : Host.Outcome State Fault Refusal :=
  .next (s.commit (Opcode.length .writeMem) (writeMemRule srcAddr dstAddr s))

end Sys2Proof.Machine
end

