-- ==== Sys2Proof/Machine/Dispatch.lean ====
section
/-! DEFINITION. One arm per instruction (R95). -/

namespace Sys2Proof.Machine

def exec (i : Instr) (s : State) : Host.Outcome State Fault Refusal :=
  match i with
  | .loadConst constant address => Sys2Proof.Machine.execLoadConst constant address s
  | .gte offset1 addr1 addr2 resAddr offset2 => Sys2Proof.Machine.execGte offset1 addr1 addr2 resAddr offset2 s
  | .writeMem srcAddr dstAddr => Sys2Proof.Machine.execWriteMem srcAddr dstAddr s
  | .readMem offset srcAddr dstAddr => Sys2Proof.Machine.execReadMem offset srcAddr dstAddr s

end Sys2Proof.Machine
end

