-- ==== Sys2Proof/Machine/Step.lean ====
section
/-! DEFINITION. One transition of the block (R92), and where a test places the next instruction. -/

namespace Sys2Proof.Machine

/-- `Step` of R92 and the table of R90. In Halted and Faulted no transition exists (R91, R100). -/
def step (s : State) : Host.Outcome State Fault Refusal :=
  match s.runState with
  | .halted => .fault .alreadyHalted
  | .faulted => .fault .alreadyFaulted
  | .running =>
    match decode s.cfg.program s.pc with
    | .endOfStream => .next s.halt
    | .unknownOpcode op => .next (s.enterFault (.unknownOpcode op))
    | .truncated op needed available =>
      .next (s.enterFault (.truncatedInstruction op needed available))
    | .instr i _ => exec i s

/-- The state with one instruction placed where `step` fetches next: its bytes at `PC` in the stream, and
the run state Running, so that the very next step runs it (log entry 4). -/
def State.withFetchWord (s : State) (nbits w : Nat) : State := s.loadAtPc (tableBytes nbits w)

end Sys2Proof.Machine
end

