-- ==== Sys2Proof/Machine/Ports.lean ====
section
/-! DEFINITION. What the host sees of the block at a transition boundary (R14): the status outputs, the range-read
port (R58 to R60) and the optional trace (R132). Each is a function of the state, so none changes it. -/

namespace Sys2Proof.Machine

/-- The status outputs (R14). -/
structure Status where
  runState : RunState
  pc       : Nat
  fault    : Option FaultRecord
  deriving DecidableEq, Repr

/-- The status outputs of a state (R14, R20). -/
def State.status (s : State) : Status := { runState := s.runState, pc := s.pc, fault := s.fault }

/-- `read_range(start, end)` (R58, R59): both bounds inclusive, addresses from `MEM_SIZE` on skipped. -/
def State.readRange (s : State) (first last : Nat) : List (Nat × Int) :=
  ((List.range' first (last + 1 - first)).filter (fun a => decide (a < s.cfg.memSize))).map
    (fun a => (a, Memory.cell s.mem a))

/-- One data access of an instruction: the kind, the address and the value moved. -/
structure Access where
  kind    : AccessKind
  address : Int
  value   : Int
  deriving DecidableEq, Repr

/-- A read of an address in this state, for the access table. -/
def State.readAccess (s : State) (a : Int) : Access := ⟨.read, a, s.cellAt a⟩

/-- The accesses of an instruction in order, as the tables of R39 and R116 list them, without bounds
checks: what the instruction accesses if every check before it passes. -/
def State.accesses (s : State) : Instr → List Access
  | .loadConst constant address => [⟨.write, directAddr address, constant⟩]
  | .readMem offset srcAddr dstAddr =>
    [s.readAccess (directAddr srcAddr),
     s.readAccess (s.rawEffectiveAddr srcAddr offset),
     ⟨.write, directAddr dstAddr, s.cellAt (s.rawEffectiveAddr srcAddr offset)⟩]
  | .writeMem srcAddr dstAddr =>
    [s.readAccess (directAddr srcAddr),
     ⟨.write, directAddr dstAddr, s.cellAt (directAddr srcAddr)⟩]
  | .gte offset1 addr1 addr2 resAddr offset2 =>
    [s.readAccess (directAddr addr1),
     s.readAccess (directAddr resAddr),
     s.readAccess (s.rawEffectiveAddr addr1 offset1),
     s.readAccess (directAddr addr2),
     ⟨.write, s.rawEffectiveAddr resAddr offset2,
       aluGe (s.cellAt (s.rawEffectiveAddr addr1 offset1)) (s.cellAt (directAddr addr2))⟩]

/-- The first access of an instruction whose address is out of range (R116, R117): its address and kind. -/
def State.firstFailing (s : State) (i : Instr) : Option AccessError :=
  ((s.accesses i).find? (fun c => !s.inRange c.address)).map (fun c => ⟨c.address, c.kind⟩)

/-- The one write the step from this state performs (R24): the last access of the decoded instruction, if all its
accesses are in range; none where the step halts or faults. -/
def State.stepWrite (s : State) : Option CellWrite :=
  match s.runState, decode s.cfg.program s.pc with
  | .running, .instr i _ =>
    match s.firstFailing i with
    | some _ => none
    | none => (s.accesses i).getLast?.map (fun c => ⟨c.address.toNat, c.value⟩)
  | _, _ => none

/-- The trace record of one instruction step (R132): the decoded instruction, the accesses performed, and the
address and kind of the access that failed its check, if one did. -/
structure TraceRecord where
  instr     : Instr
  performed : List Access
  failed    : Option AccessError
  deriving DecidableEq, Repr

/-- The trace record of the step from a state; none where no instruction is decoded. Its content is the
model's own (DESIGN CHOICE, log entry 5); R132 lets a model omit it. -/
def State.trace (s : State) : Option TraceRecord :=
  match s.runState, decode s.cfg.program s.pc with
  | .running, .instr i _ =>
    some { instr := i
           performed := (s.accesses i).takeWhile (fun c => s.inRange c.address)
           failed := s.firstFailing i }
  | _, _ => none

end Sys2Proof.Machine
end

