-- ==== Sys2Proof/Machine/Run.lean ====
section
/-! DEFINITION. Runs: sequences of transitions (R101). -/

namespace Sys2Proof.Machine

/-- The state after exactly `k` transitions, or none if the machine stopped before. -/
def stepN : Nat → State → Option State
  | 0, s => some s
  | k + 1, s =>
    match step s with
    | .next t => stepN k t
    | .fault _ => none
    | .refused _ => none

/-- The writes of the first `k` transitions, newest first (R53). -/
def writeLog : Nat → State → List CellWrite
  | 0, _ => []
  | k + 1, s =>
    match step s with
    | .next t => writeLog k t ++ s.stepWrite.toList
    | .fault _ => []
    | .refused _ => []

/-- A bound on the transitions of a run from a state: every completed instruction takes at least 6 bytes,
and one further transition ends the run (R101). -/
def State.runBound (s : State) : Nat := (s.cfg.program.length - s.pc) / 6 + 1

/-- `Step` repeated until the state is Halted or Faulted, at most `fuel` times. -/
def runFor : Nat → State → State
  | 0, s => s
  | k + 1, s =>
    match step s with
    | .next t => runFor k t
    | .fault _ => s
    | .refused _ => s

/-- The run from a state to its end (R101); `runBound` transitions suffice. -/
def State.run (s : State) : State := runFor s.runBound s

end Sys2Proof.Machine
end

