-- ==== Sys2Proof/Safety.lean ====
section
/-! DEFINITION. The terms claims are stated in: the invariant of the machine, the states a run reaches, and the
two ways an instruction can end. -/

namespace Sys2Proof.Machine

/-- The record tells the truth about the state it stands in, which but for the run state and the record is the
state before the faulting step (R120): the fault it names is the one that the bytes at PC give (R114, R115), or
the address and kind of the first access out of range of the instruction at PC (R116, R117). -/
def State.recordTrue (s : State) (r : FaultRecord) : Bool :=
  decide (r.pc = s.pc) && decide (s.pc < s.cfg.program.length) &&
  match r.info with
  | .unknownOpcode op =>
    decide (op = opcodeAt s.cfg.program s.pc) && decide (Opcode.ofBits op = none)
  | .truncatedInstruction op needed available =>
    decide (op = opcodeAt s.cfg.program s.pc) &&
    decide ((Opcode.ofBits op).map Opcode.length = some needed) &&
    decide (s.pc + available = s.cfg.program.length) && decide (available < needed)
  | .outOfRangeAddress a k =>
    match decode s.cfg.program s.pc with
    | .instr i _ => decide (s.firstFailing i = some ⟨a, k⟩)
    | .endOfStream => false
    | .unknownOpcode _ => false
    | .truncated _ _ _ => false

/-- A listed cell is one the machine has and holds a value in [0, 2047] (R22, R27). -/
def State.cellsLegal (s : State) : Bool :=
  s.mem.all (fun c => decide (c.1 < s.cfg.memSize) && decide (0 ≤ c.2) && decide (c.2 ≤ 2047))

/-- The fault record fits the run state (R31), and Halted means `PC = L` (R98). -/
def State.statusLegal (s : State) : Bool :=
  match s.runState, s.fault with
  | .running, none => true
  | .halted, none => decide (s.pc = s.cfg.program.length)
  | .faulted, some r => s.recordTrue r
  | _, _ => false

/-- The invariant of the machine: canonical memory, legal cells (R22, R27), `PC <= L` (R98), and a status
that is consistent (R31, R98, R113). -/
abbrev State.Inv (s : State) : Prop :=
  Memory.wf s.mem = true ∧ s.cellsLegal = true ∧ s.pc ≤ s.cfg.program.length ∧
    s.statusLegal = true

/-- The states of the runs from reset (R101), for every configuration that reset can take (R135). -/
inductive Reachable : State → Prop where
  | reset (memSize : Nat) (program : List Byte) : Reachable (State.resetWith memSize program)
  | step {s t : State} (h : Reachable s) (hs : Machine.step s = .next t) : Reachable t

/-- The instruction completes: it answers a next state in which cell `a` holds `v`, every other cell is as
before, PC has advanced by `n`, and the run state, the fault record and the configuration are as before
(R92: "a returned state differs from s only in the fields named"). -/
def CompletesWriting (i : Instr) (s : State) (n : Nat) (a : Nat) (v : Int) : Prop :=
  ∃ t, exec i s = .next t ∧
    (∀ b, Memory.cell t.mem b = if b = a then v else Memory.cell s.mem b) ∧
    t.pc = s.pc + n ∧ t.runState = s.runState ∧ t.fault = s.fault ∧ t.cfg = s.cfg

/-- The instruction raises OutOfRangeAddress with this address and kind, code 2, and changes nothing but the
run state and the fault record (R117, R120, R121). -/
def FaultsOutOfRange (i : Instr) (s : State) (a : Int) (k : AccessKind) : Prop :=
  exec i s = .next
    { s with runState := .faulted, fault := some { pc := s.pc, info := .outOfRangeAddress a k } }

end Sys2Proof.Machine
end

