-- ==== Sys2Proof/Certificates/Slice0/Obligations.lean ====
section
/-! DEFINITION. The statements for the provers, each with the rule of spec/ it comes from. Cell reads are
`Memory.cell`, the model's read of one cell; a statement about an instruction's result says every cell of the
next state, so it holds the instruction's frame. -/

open Sys2Proof Sys2Proof.Machine

/-! ### Reset and the configuration -/

/-- R34, R137: reset, for every configuration it can take. -/
def Obligations.ResetSetsEveryPart : Prop :=
  ∀ (n : Nat) (B : List Byte),
    (∀ a, Memory.cell (State.resetWith n B).mem a = 0) ∧
    (State.resetWith n B).pc = 0 ∧
    (State.resetWith n B).runState = .running ∧
    (State.resetWith n B).fault = none ∧
    (State.resetWith n B).cfg = { memSize := n, program := B }

/-- The invariant holds after reset: for every configuration, and for `State.reset`, whose configuration is the
model's choice (log entries 2 and 3). -/
def Obligations.InvariantHoldsAfterReset : Prop :=
  (∀ (n : Nat) (B : List Byte), (State.resetWith n B).Inv) ∧ State.reset.Inv

/-- R33, R35, R43: no step changes the program binary, its length or the memory size. -/
def Obligations.ConfigurationIsFixed : Prop :=
  ∀ s t : State, step s = .next t → t.cfg = s.cfg

/-! ### Invariants of the whole machine -/

/-- Every step from a state with the invariant gives one: canonical memory, cells in [0, 2047] below
`MEM_SIZE`, `PC <= L`, and a run state and fault record that fit each other and the bytes at PC. -/
def Obligations.EveryStepKeepsTheInvariant : Prop :=
  ∀ s t : State, s.Inv → step s = .next t → t.Inv

/-- R27: in every reachable state every cell is in [0, 2047], and every effective address is in
[0, 2302]. -/
def Obligations.ReachableCellsAndAddressesBounded : Prop :=
  ∀ s : State, Reachable s →
    (∀ a, 0 ≤ Memory.cell s.mem a ∧ Memory.cell s.mem a ≤ 2047) ∧
    (∀ base offset : Nat, offset < 2 ^ 8 →
      0 ≤ s.rawEffectiveAddr base offset ∧ s.rawEffectiveAddr base offset ≤ 2302)

/-- R98: a completed instruction advances PC by its length, 6, 13, 8 or 9; in every reachable state
`PC <= L`; a run halts with exactly `PC = L`. -/
def Obligations.PcAdvancesByLengthWithinStream : Prop :=
  (∀ (s t : State) (i : Instr) (n : Nat), s.runState = .running →
    decode s.cfg.program s.pc = .instr i n → step s = .next t → t.runState = .running →
      t.pc = s.pc +
        (match i with
          | .loadConst _ _ => 6
          | .gte _ _ _ _ _ => 13
          | .writeMem _ _ => 8
          | .readMem _ _ _ => 9) ∧
      s.pc + n ≤ s.cfg.program.length) ∧
  (∀ s : State, Reachable s →
    s.pc ≤ s.cfg.program.length ∧ (s.runState = .halted → s.pc = s.cfg.program.length))

/-- R31: the fault record is there exactly in Faulted, holds the PC of the faulting instruction and a code
of R113, and its info is the one R114, R115 or R117 gives: the opcode at PC; that opcode with the bytes needed and
left; or the address and kind of the first access out of range of the instruction that the bytes at PC decode to
(`State.recordTrue`). -/
def Obligations.FaultRecordFitsTheFault : Prop :=
  ∀ s : State, Reachable s →
    (s.runState ≠ .faulted → s.fault = none) ∧
    (s.runState = .faulted → ∃ r, s.fault = some r ∧ r.pc = s.pc ∧
      (r.code = 1 ∨ r.code = 2 ∨ r.code = 3) ∧ s.recordTrue r = true)

/-! ### The step -/

/-- R92: when the bytes at PC decode to an instruction, and so when they are the encoding of a well-formed
instruction, the step is that instruction's meaning, with nothing around it. -/
def Obligations.StepRunsTheInstructionAtPc : Prop :=
  (∀ (s : State) (i : Instr) (n : Nat), s.runState = .running →
    decode s.cfg.program s.pc = .instr i n → step s = exec i s) ∧
  (∀ (s : State) (i : Instr), s.runState = .running → i.wellFormed = true →
    (s.cfg.program.drop s.pc).take i.length = encode i → step s = exec i s)

/-- R94: at the end of the stream the step changes only the run state; with an empty stream this is the
first step from reset. -/
def Obligations.HaltTransitionChangesOnlyRunState : Prop :=
  (∀ s : State, s.runState = .running → s.cfg.program.length ≤ s.pc →
    step s = .next { s with runState := .halted }) ∧
  (∀ n : Nat, step (State.resetWith n []) =
    .next { State.resetWith n [] with runState := .halted })

/-- R114: an opcode that is none of 40, 68, 101, 111. -/
def Obligations.UnknownOpcodeIsTakenAsFault : Prop :=
  ∀ (s : State) (b : Byte), s.runState = .running → s.cfg.program[s.pc]? = some b →
    b.toNat % 128 ≠ 40 → b.toNat % 128 ≠ 68 → b.toNat % 128 ≠ 101 → b.toNat % 128 ≠ 111 →
    step s = .next { s with
      runState := .faulted
      fault := some { pc := s.pc, info := .unknownOpcode (b.setWidth 7) } } ∧
    FaultInfo.code (.unknownOpcode (b.setWidth 7)) = 1

/-- R115: a legal opcode whose instruction runs past the end of the stream. -/
def Obligations.TruncatedInstructionIsTakenAsFault : Prop :=
  ∀ (s : State) (b : Byte) (len : Nat), s.runState = .running → s.cfg.program[s.pc]? = some b →
    ((b.toNat % 128 = 40 ∧ len = 9) ∨ (b.toNat % 128 = 68 ∧ len = 13) ∨
      (b.toNat % 128 = 101 ∧ len = 8) ∨ (b.toNat % 128 = 111 ∧ len = 6)) →
    s.cfg.program.length < s.pc + len →
    step s = .next { s with
      runState := .faulted
      fault := some { pc := s.pc, info :=
        .truncatedInstruction (b.setWidth 7) len (s.cfg.program.length - s.pc) } } ∧
    FaultInfo.code
      (.truncatedInstruction (b.setWidth 7) len (s.cfg.program.length - s.pc)) = 3

/-- R91: a step is defined exactly in Running; in Halted and Faulted the block has no transition. -/
def Obligations.StepIsDefinedExactlyWhenRunning : Prop :=
  ∀ s : State, (∃ t, step s = .next t) ↔ s.runState = .running

/-- R120, R121: a step that ends in Faulted changes the run state and the fault record and nothing else,
and the record holds PC. -/
def Obligations.FaultsArePrecise : Prop :=
  ∀ s t : State, step s = .next t → t.runState = .faulted →
    ∃ info, t = { s with runState := .faulted, fault := some { pc := s.pc, info := info } }

/-- R29: PC changes only by the length of a completed instruction; the halt transition and a fault leave
it. -/
def Obligations.PcChangesInOneWayOnly : Prop :=
  ∀ s t : State, step s = .next t →
    (t.runState = .running → ∃ i n, decode s.cfg.program s.pc = .instr i n ∧
      (n = 6 ∨ n = 13 ∨ n = 8 ∨ n = 9) ∧ t.pc = s.pc + n) ∧
    (t.runState ≠ .running → t.pc = s.pc)

/-- R104: where PC goes does not depend on data: two machines at the same PC of the same stream that both
go on running reach the same PC. -/
def Obligations.DataDoesNotSteerThePc : Prop :=
  ∀ s s' t t' : State, s.cfg.program = s'.cfg.program → s.pc = s'.pc →
    step s = .next t → step s' = .next t' →
    t.runState = .running → t'.runState = .running → t.pc = t'.pc

/-- R25: what a step can write. A cell that a step changes was given LoadConst's constant field, the value
another cell had before the step (ReadMem, WriteMem), or 0 or 1 (Gte). -/
def Obligations.OnlyThreeKindsOfValueAreWritten : Prop :=
  ∀ (s t : State) (b : Nat), step s = .next t → Memory.cell t.mem b ≠ Memory.cell s.mem b →
    (∃ c a n, decode s.cfg.program s.pc = .instr (.loadConst c a) n ∧ c ≤ 2047 ∧
      Memory.cell t.mem b = c) ∨
    (∃ x, ((∃ o p q n, decode s.cfg.program s.pc = .instr (.readMem o p q) n) ∨
        (∃ p q n, decode s.cfg.program s.pc = .instr (.writeMem p q) n)) ∧
      x < s.cfg.memSize ∧ x ≠ b ∧ Memory.cell t.mem b = Memory.cell s.mem x) ∨
    ((∃ o1 p1 p2 pr o2 n, decode s.cfg.program s.pc = .instr (.gte o1 p1 p2 pr o2) n) ∧
      (Memory.cell t.mem b = 0 ∨ Memory.cell t.mem b = 1))

/-! ### The instructions -/

/-- R107: LoadConst, opcode 111 and 6 bytes, writes its constant to its address, or faults on the address. -/
def Obligations.LoadConstWritesItsConstant : Prop :=
  ∀ (constant address : Nat) (s : State),
    (Instr.loadConst constant address).opcode.code = 111#7 ∧
    (Instr.loadConst constant address).length = 6 ∧
    (address < s.cfg.memSize →
      CompletesWriting (.loadConst constant address) s 6 address constant) ∧
    (s.cfg.memSize ≤ address →
      FaultsOutOfRange (.loadConst constant address) s address .write)

/-- R108: ReadMem, opcode 40 and 9 bytes, copies the cell at `M[src_addr] + offset` to `dst_addr`; its three checks in order. -/
def Obligations.ReadMemLoadsThroughItsBase : Prop :=
  ∀ (offset srcAddr dstAddr : Nat) (s : State),
    (Instr.readMem offset srcAddr dstAddr).opcode.code = 40#7 ∧
    (Instr.readMem offset srcAddr dstAddr).length = 9 ∧
    if s.cfg.memSize ≤ srcAddr then
      FaultsOutOfRange (.readMem offset srcAddr dstAddr) s srcAddr .read
    else if ¬(0 ≤ Memory.cell s.mem srcAddr + offset ∧
        Memory.cell s.mem srcAddr + offset < s.cfg.memSize) then
      FaultsOutOfRange (.readMem offset srcAddr dstAddr) s (Memory.cell s.mem srcAddr + offset) .read
    else if s.cfg.memSize ≤ dstAddr then
      FaultsOutOfRange (.readMem offset srcAddr dstAddr) s dstAddr .write
    else
      CompletesWriting (.readMem offset srcAddr dstAddr) s 9 dstAddr
        (Memory.cell s.mem (Memory.cell s.mem srcAddr + offset).toNat)

/-- R109: WriteMem, opcode 101 and 8 bytes, copies the cell at `src_addr` to `dst_addr`; its two checks in order. -/
def Obligations.WriteMemCopiesCell : Prop :=
  ∀ (srcAddr dstAddr : Nat) (s : State),
    (Instr.writeMem srcAddr dstAddr).opcode.code = 101#7 ∧
    (Instr.writeMem srcAddr dstAddr).length = 8 ∧
    if s.cfg.memSize ≤ srcAddr then
      FaultsOutOfRange (.writeMem srcAddr dstAddr) s srcAddr .read
    else if s.cfg.memSize ≤ dstAddr then
      FaultsOutOfRange (.writeMem srcAddr dstAddr) s dstAddr .write
    else
      CompletesWriting (.writeMem srcAddr dstAddr) s 8 dstAddr (Memory.cell s.mem srcAddr)

/-- R110: Gte, opcode 68 and 13 bytes, compares the cell at `M[addr1] + offset1` with the cell at `addr2` and writes 1 or 0 to
`M[res_addr] + offset2`, all read before the write; its five checks in order. -/
def Obligations.GteWritesTheComparison : Prop :=
  ∀ (offset1 addr1 addr2 resAddr offset2 : Nat) (s : State),
    (Instr.gte offset1 addr1 addr2 resAddr offset2).opcode.code = 68#7 ∧
    (Instr.gte offset1 addr1 addr2 resAddr offset2).length = 13 ∧
    if s.cfg.memSize ≤ addr1 then
      FaultsOutOfRange (.gte offset1 addr1 addr2 resAddr offset2) s addr1 .read
    else if s.cfg.memSize ≤ resAddr then
      FaultsOutOfRange (.gte offset1 addr1 addr2 resAddr offset2) s resAddr .read
    else if ¬(0 ≤ Memory.cell s.mem addr1 + offset1 ∧
        Memory.cell s.mem addr1 + offset1 < s.cfg.memSize) then
      FaultsOutOfRange (.gte offset1 addr1 addr2 resAddr offset2) s
        (Memory.cell s.mem addr1 + offset1) .read
    else if s.cfg.memSize ≤ addr2 then
      FaultsOutOfRange (.gte offset1 addr1 addr2 resAddr offset2) s addr2 .read
    else if ¬(0 ≤ Memory.cell s.mem resAddr + offset2 ∧
        Memory.cell s.mem resAddr + offset2 < s.cfg.memSize) then
      FaultsOutOfRange (.gte offset1 addr1 addr2 resAddr offset2) s
        (Memory.cell s.mem resAddr + offset2) .write
    else
      CompletesWriting (.gte offset1 addr1 addr2 resAddr offset2) s 13
        (Memory.cell s.mem resAddr + offset2).toNat
        (if Memory.cell s.mem (Memory.cell s.mem addr1 + offset1).toNat ≥ Memory.cell s.mem addr2
          then 1 else 0)

/-- Each of the four instructions answers a next state that is its own effect, with its frame, wherever the
addresses it forms are in range: the completion half of R107 to R110, on hypotheses about the state and the
operands alone. -/
def Obligations.EachInstructionCompletesInRange : Prop :=
  (∀ (c a : Nat) (s : State), a < s.cfg.memSize → CompletesWriting (.loadConst c a) s 6 a c) ∧
  (∀ (p q : Nat) (s : State), p < s.cfg.memSize → q < s.cfg.memSize →
    CompletesWriting (.writeMem p q) s 8 q (Memory.cell s.mem p)) ∧
  (∀ (o p q ea : Nat) (s : State), p < s.cfg.memSize → Memory.cell s.mem p + o = ea →
    ea < s.cfg.memSize → q < s.cfg.memSize →
    CompletesWriting (.readMem o p q) s 9 q (Memory.cell s.mem ea)) ∧
  (∀ (o1 p1 p2 pr o2 ea1 ear : Nat) (s : State), p1 < s.cfg.memSize → pr < s.cfg.memSize →
    Memory.cell s.mem p1 + o1 = ea1 → ea1 < s.cfg.memSize → p2 < s.cfg.memSize →
    Memory.cell s.mem pr + o2 = ear → ear < s.cfg.memSize →
    CompletesWriting (.gte o1 p1 p2 pr o2) s 13 ear
      (if Memory.cell s.mem ea1 ≥ Memory.cell s.mem p2 then 1 else 0))

/-- R117 over the access table of R116 (`State.accesses`): the first access whose address is out of range
decides the fault, with code 2; if there is none, the last access is the write that the instruction ends
with. -/
def Obligations.FirstFailingAccessDecides : Prop :=
  ∀ (i : Instr) (s : State),
    match (s.accesses i).find? (fun c => !s.inRange c.address) with
    | some c =>
      FaultsOutOfRange i s c.address c.kind ∧
        FaultInfo.code (.outOfRangeAddress c.address c.kind) = 2
    | none =>
      ∃ c, (s.accesses i).getLast? = some c ∧ c.kind = .write ∧
        CompletesWriting i s i.length c.address.toNat c.value

/-- R53: the next instruction sees the write. After any instruction that completes writing v to a cell, a read of
that cell gives v and a read of any other address gives what it gave before; so WriteMem from that cell copies v. -/
def Obligations.NextInstructionSeesTheWrite : Prop :=
  ∀ (i : Instr) (s t : State) (n a : Nat) (v : Int), a < s.cfg.memSize →
    CompletesWriting i s n a v → exec i s = .next t →
    t.memRead a = .ok v ∧
    (∀ b : Int, b ≠ a → t.memRead b = s.memRead b) ∧
    ∀ q, q < s.cfg.memSize → CompletesWriting (.writeMem a q) t 8 q v

/-- R53: after any number of transitions a cell holds the value of the most recent write to it, or what it held
at the start if there was none; from reset that is 0. The writes are those of the access table
(`State.stepWrite`). -/
def Obligations.CellsHoldTheMostRecentWrite : Prop :=
  (∀ (k : Nat) (s t : State) (b : Nat), stepN k s = some t →
    Memory.cell t.mem b =
      match (writeLog k s).find? (fun w => decide (w.addr = b)) with
      | some w => w.value
      | none => Memory.cell s.mem b) ∧
  (∀ (k m : Nat) (B : List Byte) (t : State) (b : Nat), stepN k (State.resetWith m B) = some t →
    (∀ w ∈ writeLog k (State.resetWith m B), w.addr ≠ b) → Memory.cell t.mem b = 0)

/-- Equal memories are equal data: two canonical memories with the same cells are the same list. -/
def Obligations.CanonicalMemoriesAreExtensional : Prop :=
  ∀ m m' : Memory, Memory.wf m = true → Memory.wf m' = true →
    (∀ a, Memory.cell m a = Memory.cell m' a) → m = m'

/-! ### Encoding -/

/-- R84: decoding an encoded instruction gives it back with its length, anywhere in a stream, at every value
of every operand; and the encoding's length is the opcode's. -/
def Obligations.DecodeOfEncodeIsIdentity : Prop :=
  ∀ (i : Instr) (before after : List Byte), i.wellFormed = true →
    decode (before ++ encode i ++ after) before.length = .instr i i.length ∧
    (encode i).length = i.opcode.length

/-- R16: a decoded field of width w is in [0, 2^w); with it, that the length is the instruction's own and
the instruction ends within the stream. -/
def Obligations.DecodedInstructionIsWellFormed : Prop :=
  ∀ (B : List Byte) (pc n : Nat) (i : Instr), decode B pc = .instr i n →
    i.wellFormed = true ∧ n = i.length ∧ pc + n ≤ B.length

/-- R78: an instruction with any padding bits, anywhere in a stream, decodes and executes as the one with zero
padding, which is what the encoder writes. -/
def Obligations.PaddingBitsAreIgnored : Prop :=
  ∀ (i : Instr) (pad : Nat) (before after : List Byte) (s : State), i.wellFormed = true →
    pad < 2 ^ (8 * i.length - i.opcode.usedBits) →
    encodeWord i < 2 ^ i.opcode.usedBits ∧
    decode (before ++ leBytes i.length (encodeWord i + pad * 2 ^ i.opcode.usedBits) ++ after)
      before.length = .instr i i.length ∧
    (s.runState = .running → s.pc = before.length →
      s.cfg.program =
        before ++ leBytes i.length (encodeWord i + pad * 2 ^ i.opcode.usedBits) ++ after →
      step s = exec i s)

/-- R12: an instruction is read as the little-endian integer of its bytes, and bit k of it is bit `k mod 8`
of byte `PC + k div 8`. -/
def Obligations.WordIsLittleEndian : Prop :=
  ∀ (B : List Byte) (pc n : Nat), pc + n ≤ B.length →
    fetchWord B pc n =
      ((List.range n).map (fun i => (B.getD (pc + i) 0).toNat * 2 ^ (8 * i))).sum ∧
    ∀ k, k < 8 * n →
      (fetchWord B pc n).testBit k = (B.getD (pc + k / 8) 0).getLsbD (k % 8)

/-- R68: LoadConst's fields as concatenations of byte slices, at any PC. -/
def Obligations.LoadConstByteSlices : Prop :=
  ∀ (b0 b1 b2 b3 b4 b5 : Byte) (before rest : List Byte), b0.toNat % 128 = 111 →
    decode (before ++ [b0, b1, b2, b3, b4, b5] ++ rest) before.length =
      .instr (.loadConst
        ((slice b2.toNat 1 0 * 2 ^ 8 + b1.toNat) * 2 + slice b0.toNat 7 7)
        (((slice b5.toNat 3 0 * 2 ^ 8 + b4.toNat) * 2 ^ 8 + b3.toNat) * 2 ^ 6 +
          slice b2.toNat 7 2)) 6

/-- R69: Gte's fields as concatenations of byte slices, at any PC. -/
def Obligations.GteByteSlices : Prop :=
  ∀ (b0 b1 b2 b3 b4 b5 b6 b7 b8 b9 b10 b11 b12 : Byte) (before rest : List Byte),
    b0.toNat % 128 = 68 →
    decode (before ++ [b0, b1, b2, b3, b4, b5, b6, b7, b8, b9, b10, b11, b12] ++ rest) before.length =
      .instr (.gte
        (slice b1.toNat 6 0 * 2 + slice b0.toNat 7 7)
        ((((slice b5.toNat 0 0 * 2 ^ 8 + b4.toNat) * 2 ^ 8 + b3.toNat) * 2 ^ 8 + b2.toNat) * 2 +
          slice b1.toNat 7 7)
        (((slice b8.toNat 2 0 * 2 ^ 8 + b7.toNat) * 2 ^ 8 + b6.toNat) * 2 ^ 7 +
          slice b5.toNat 7 1)
        (((slice b11.toNat 4 0 * 2 ^ 8 + b10.toNat) * 2 ^ 8 + b9.toNat) * 2 ^ 5 +
          slice b8.toNat 7 3)
        (slice b12.toNat 4 0 * 2 ^ 3 + slice b11.toNat 7 5)) 13

/-- R70: WriteMem's fields as concatenations of byte slices, at any PC. -/
def Obligations.WriteMemByteSlices : Prop :=
  ∀ (b0 b1 b2 b3 b4 b5 b6 b7 : Byte) (before rest : List Byte), b0.toNat % 128 = 101 →
    decode (before ++ [b0, b1, b2, b3, b4, b5, b6, b7] ++ rest) before.length =
      .instr (.writeMem
        ((((slice b4.toNat 0 0 * 2 ^ 8 + b3.toNat) * 2 ^ 8 + b2.toNat) * 2 ^ 8 + b1.toNat) * 2 +
          slice b0.toNat 7 7)
        (((slice b7.toNat 2 0 * 2 ^ 8 + b6.toNat) * 2 ^ 8 + b5.toNat) * 2 ^ 7 +
          slice b4.toNat 7 1)) 8

/-- R71: ReadMem's fields as concatenations of byte slices, at any PC. -/
def Obligations.ReadMemByteSlices : Prop :=
  ∀ (b0 b1 b2 b3 b4 b5 b6 b7 b8 : Byte) (before rest : List Byte), b0.toNat % 128 = 40 →
    decode (before ++ [b0, b1, b2, b3, b4, b5, b6, b7, b8] ++ rest) before.length =
      .instr (.readMem
        (slice b1.toNat 6 0 * 2 + slice b0.toNat 7 7)
        ((((slice b5.toNat 0 0 * 2 ^ 8 + b4.toNat) * 2 ^ 8 + b3.toNat) * 2 ^ 8 + b2.toNat) * 2 +
          slice b1.toNat 7 7)
        (((slice b8.toNat 2 0 * 2 ^ 8 + b7.toNat) * 2 ^ 8 + b6.toNat) * 2 ^ 7 +
          slice b5.toNat 7 1)) 9

/-- R93: the decoder reads the opcode byte and then exactly the instruction's bytes: a stream that agrees
on those bytes decodes alike. -/
def Obligations.DecodeReadsOnlyTheInstructionsBytes : Prop :=
  (∀ (B B' : List Byte) (pc n : Nat) (i : Instr), decode B pc = .instr i n →
    (B'.drop pc).take n = (B.drop pc).take n → decode B' pc = .instr i n) ∧
  (∀ (B B' : List Byte) (pc : Nat) (op : BitVec 7), decode B pc = .unknownOpcode op →
    B'[pc]? = B[pc]? → decode B' pc = .unknownOpcode op)

/-- R139, R89: the binary of a list of well-formed instructions decodes to each of them at its boundary, and
ends after the last one. -/
def Obligations.AssembledBinaryDecodesAtBoundaries : Prop :=
  (∀ (before after : List Instr) (i : Instr), i.wellFormed = true →
    decode (encodeProgram (before ++ i :: after)) (encodeProgram before).length =
      .instr i i.length) ∧
  (∀ is : List Instr, decode (encodeProgram is) (encodeProgram is).length = .endOfStream)

/-- Four words of R64 to R67 written out bit by bit, with non-symmetric fields, highest field first. -/
def Obligations.WrittenOutWordsDecode : Prop :=
  decodeTableWord 48 0b0000_00000000000000000000000011_00000101010_1101111 =
    some (.loadConst 42 3) ∧
  decodeTableWord 104
    0b000_00000101_00000000000000000000011111_00000000000000000000010100_00000000000000000000011110_00010101_1000100 =
    some (.gte 21 30 20 31 5) ∧
  decodeTableWord 64 0b00000_00000000000000000000000100_00000000000000000000000011_1100101 =
    some (.writeMem 3 4) ∧
  decodeTableWord 72
    0b00000_00000000000000000000000110_00000000000000000000000000_00000010_0101000 =
    some (.readMem 2 0 6)

/-- The host's two entries agree with the encoder: the table word of a well-formed instruction decodes to it,
and the step after placing it runs exactly it. -/
def Obligations.PlacedWordRunsNext : Prop :=
  ∀ (i : Instr) (s : State), i.wellFormed = true →
    decodeTableWord (8 * i.length) (encodeWord i) = some i ∧
    step (s.withFetchWord (8 * i.length) (encodeWord i)) =
      exec i (s.withFetchWord (8 * i.length) (encodeWord i))

/-! ### Runs and ports -/

/-- R101: every run ends. From any running state within the stream there are at most
`floor((L - PC) / 6)` completed instructions, each leaving the machine running, and then exactly one further
transition, to Halted or Faulted, after which none exists (R144: k + 1 transitions); `State.run` is that
last state. From reset, PC is 0 and the bound is `floor(L / 6)`. -/
def Obligations.EveryRunEnds : Prop :=
  ∀ s : State, s.runState = .running → s.pc ≤ s.cfg.program.length →
    ∃ k t u, k ≤ (s.cfg.program.length - s.pc) / 6 ∧
      (∀ j ≤ k, ∃ x, stepN j s = some x ∧ x.runState = .running) ∧
      stepN k s = some t ∧ step t = .next u ∧
      (u.runState = .halted ∨ u.runState = .faulted) ∧
      stepN (k + 1) s = some u ∧ stepN (k + 2) s = none ∧ s.run = u

/-- R58, R59: the range-read port gives exactly the pairs of the addresses from `first` to `last` below
`MEM_SIZE`, in increasing order, and nothing if `first > last`. -/
def Obligations.RangeReadListsCellsInOrder : Prop :=
  ∀ (s : State) (first last : Nat),
    (∀ a v, (a, v) ∈ s.readRange first last ↔
      first ≤ a ∧ a ≤ last ∧ a < s.cfg.memSize ∧ v = Memory.cell s.mem a) ∧
    ((s.readRange first last).map Prod.fst).Pairwise (· < ·) ∧
    (last < first → s.readRange first last = [])
end

