-- ==== Sys2Proof/Laws/Codec.lean ====
section
/-! SUPPORT. Bytes and integers: reading back what was written, and what the decoder's parts give. -/

namespace Sys2Proof

@[simp] theorem leBytes_length (n w : Nat) : (leBytes n w).length = n := by
  induction n generalizing w with
  | zero => rfl
  | succ n ih => simp [leBytes, ih]

@[simp] theorem encode_length (i : Instr) : (encode i).length = i.length := by simp [encode]

theorem leValue_leBytes (n w : Nat) : leValue (leBytes n w) = w % 256 ^ n := by
  induction n generalizing w with
  | zero => simp [leBytes, leValue, Nat.mod_one]
  | succ n ih =>
    simp only [leBytes, leValue, ih, BitVec.toNat_ofNat, Nat.reducePow]
    rw [pow_succ', Nat.mod_mul]

theorem ofBits_code (o : Opcode) : Opcode.ofBits o.code = some o := by cases o <;> rfl

theorem ofBits_eq_some {op : BitVec 7} {o : Opcode} (h : Opcode.ofBits op = some o) : op = o.code := by
  unfold Opcode.ofBits at h
  split at h <;> simp at h <;> subst h <;> (apply BitVec.eq_of_toNat_eq; assumption)

theorem slice_lt (v hi lo : Nat) : slice v hi lo < 2 ^ (hi - lo + 1) :=
  Nat.mod_lt _ (by positivity)

@[simp] theorem fits_iff (o : Operand) : o.fits = true ↔ o.value < 2 ^ o.width := by
  simp [Operand.fits]

/-! What well-formedness says of each constructor (R9). -/

theorem wellFormed_loadConst (constant address : Nat) :
    (Instr.loadConst constant address).wellFormed = true ↔
      constant < 2 ^ 11 ∧ address < 2 ^ 26 := by
  simp [Instr.wellFormed, Instr.operands]

theorem wellFormed_writeMem (srcAddr dstAddr : Nat) :
    (Instr.writeMem srcAddr dstAddr).wellFormed = true ↔
      srcAddr < 2 ^ 26 ∧ dstAddr < 2 ^ 26 := by
  simp [Instr.wellFormed, Instr.operands]

theorem wellFormed_readMem (offset srcAddr dstAddr : Nat) :
    (Instr.readMem offset srcAddr dstAddr).wellFormed = true ↔
      offset < 2 ^ 8 ∧ srcAddr < 2 ^ 26 ∧ dstAddr < 2 ^ 26 := by
  simp [Instr.wellFormed, Instr.operands]

theorem wellFormed_gte (offset1 addr1 addr2 resAddr offset2 : Nat) :
    (Instr.gte offset1 addr1 addr2 resAddr offset2).wellFormed = true ↔
      offset1 < 2 ^ 8 ∧ addr1 < 2 ^ 26 ∧ addr2 < 2 ^ 26 ∧ resAddr < 2 ^ 26 ∧ offset2 < 2 ^ 8 := by
  simp [Instr.wellFormed, Instr.operands]

/-- The fields the decoder extracts fit their widths. -/
theorem decodeFields_wellFormed (o : Opcode) (W : Nat) : (decodeFields o W).wellFormed = true := by
  cases o
  · exact (wellFormed_loadConst _ _).2 ⟨slice_lt W 17 7, slice_lt W 43 18⟩
  · exact (wellFormed_gte _ _ _ _ _).2 ⟨slice_lt W 14 7, slice_lt W 40 15, slice_lt W 66 41,
      slice_lt W 92 67, slice_lt W 100 93⟩
  · exact (wellFormed_writeMem _ _).2 ⟨slice_lt W 32 7, slice_lt W 58 33⟩
  · exact (wellFormed_readMem _ _ _).2 ⟨slice_lt W 14 7, slice_lt W 40 15, slice_lt W 66 41⟩

theorem decodeFields_opcode (o : Opcode) (W : Nat) : (decodeFields o W).opcode = o := by
  cases o <;> rfl

/-- Everything that a decoded instruction says of the stream (R81). -/
theorem decode_eq_instr {B : List Byte} {pc n : Nat} {i : Instr} (h : decode B pc = .instr i n) :
    ∃ o : Opcode, opcodeAt B pc = o.code ∧ n = o.length ∧ pc + n ≤ B.length ∧
      i = decodeFields o (fetchWord B pc n) := by
  unfold decode at h
  split at h
  · cases h
  · split at h
    · cases h
    · rename_i o ho
      split at h
      · cases h
      · injection h with h1 h2
        subst h2
        exact ⟨o, ofBits_eq_some ho, rfl, by omega, h1.symm⟩

/-- The decoder on a legal opcode whose bytes are all there. -/
theorem decode_of_opcode {B : List Byte} {pc : Nat} {o : Opcode} (hop : opcodeAt B pc = o.code)
    (hlen : pc + o.length ≤ B.length) :
    decode B pc = .instr (decodeFields o (fetchWord B pc o.length)) o.length := by
  have h0 : 0 < o.length := by cases o <;> decide
  unfold decode
  rw [if_neg (by omega), hop, ofBits_code]
  simp only
  rw [if_neg (by omega)]

/-- The opcode is the low seven bits of the byte at PC. -/
theorem opcodeAt_of_getElem {B : List Byte} {pc : Nat} {b : Byte} (h : B[pc]? = some b) :
    opcodeAt B pc = b.setWidth 7 := by
  simp [opcodeAt, List.getD_eq_getElem?_getD, h]

/-- OR with a shifted value is a sum where the low part fits. -/
theorem or_shiftLeft_eq_add {v w : Nat} (h : v < 2 ^ w) (x : Nat) : v ||| (x <<< w) = v + x * 2 ^ w := by
  rw [Nat.or_comm, ← Nat.shiftLeft_add_eq_or_of_lt h, Nat.shiftLeft_eq, Nat.add_comm]

/-! The encoder's integer as a sum over the bit offsets (R63). -/

theorem encodeWord_loadConst {constant address : Nat}
    (h : (Instr.loadConst constant address).wellFormed = true) :
    encodeWord (.loadConst constant address) = 111 + constant * 2 ^ 7 + address * 2 ^ 18 := by
  obtain ⟨h1, -⟩ := (wellFormed_loadConst _ _).1 h
  simp only [encodeWord, Instr.layout, packFields, Nat.zero_shiftLeft, Nat.or_zero]
  rw [or_shiftLeft_eq_add h1, or_shiftLeft_eq_add (w := 7) (by decide)]
  ring

theorem encodeWord_writeMem {srcAddr dstAddr : Nat}
    (h : (Instr.writeMem srcAddr dstAddr).wellFormed = true) :
    encodeWord (.writeMem srcAddr dstAddr) = 101 + srcAddr * 2 ^ 7 + dstAddr * 2 ^ 33 := by
  obtain ⟨h1, -⟩ := (wellFormed_writeMem _ _).1 h
  simp only [encodeWord, Instr.layout, packFields, Nat.zero_shiftLeft, Nat.or_zero]
  rw [or_shiftLeft_eq_add h1, or_shiftLeft_eq_add (w := 7) (by decide)]
  ring

theorem encodeWord_readMem {offset srcAddr dstAddr : Nat}
    (h : (Instr.readMem offset srcAddr dstAddr).wellFormed = true) :
    encodeWord (.readMem offset srcAddr dstAddr) =
      40 + offset * 2 ^ 7 + srcAddr * 2 ^ 15 + dstAddr * 2 ^ 41 := by
  obtain ⟨h1, h2, -⟩ := (wellFormed_readMem _ _ _).1 h
  simp only [encodeWord, Instr.layout, packFields, Nat.zero_shiftLeft, Nat.or_zero]
  rw [or_shiftLeft_eq_add h2, or_shiftLeft_eq_add h1, or_shiftLeft_eq_add (w := 7) (by decide)]
  ring

theorem encodeWord_gte {offset1 addr1 addr2 resAddr offset2 : Nat}
    (h : (Instr.gte offset1 addr1 addr2 resAddr offset2).wellFormed = true) :
    encodeWord (.gte offset1 addr1 addr2 resAddr offset2) =
      68 + offset1 * 2 ^ 7 + addr1 * 2 ^ 15 + addr2 * 2 ^ 41 + resAddr * 2 ^ 67 +
        offset2 * 2 ^ 93 := by
  obtain ⟨h1, h2, h3, h4, -⟩ := (wellFormed_gte _ _ _ _ _).1 h
  simp only [encodeWord, Instr.layout, packFields, Nat.zero_shiftLeft, Nat.or_zero]
  rw [or_shiftLeft_eq_add h4, or_shiftLeft_eq_add h3, or_shiftLeft_eq_add h2,
    or_shiftLeft_eq_add h1, or_shiftLeft_eq_add (w := 7) (by decide)]
  ring

end Sys2Proof
end

