-- ==== Sys2Proof/Laws/Memory.lean ====
section
/-! SUPPORT. The laws of data memory: what a read gives after a write, and that every operation keeps the
canonical form. -/

namespace Sys2Proof.Machine

variable (m : Memory) (a b : Nat) (v : Int)

@[simp] theorem cell_nil : Memory.cell [] a = 0 := rfl

theorem cell_erase : Memory.cell (Memory.erase m a) b = if b = a then 0 else Memory.cell m b := by
  induction m with
  | nil => simp [Memory.erase, Memory.cell]
  | cons c m ih =>
    obtain ⟨x, w⟩ := c
    by_cases hx : x = a
    · subst hx
      by_cases hb : b = x
      · subst hb; simpa [Memory.erase] using ih
      · simp [Memory.erase, Memory.cell, ih, hb, Ne.symm hb]
    · by_cases hb : x = b
      · subst hb; simp [Memory.erase, Memory.cell, hx]
      · simp [Memory.erase, Memory.cell, hx, hb, ih]

theorem cell_insert_ne (h : b ≠ a) : Memory.cell (Memory.insert m a v) b = Memory.cell m b := by
  induction m with
  | nil => simp [Memory.insert, Memory.cell, h.symm]
  | cons c m ih =>
    obtain ⟨x, w⟩ := c
    by_cases hx : a < x
    · simp [Memory.insert, Memory.cell, hx, h.symm]
    · simp [Memory.insert, Memory.cell, hx, ih]

theorem cell_insert_self (h : ∀ c ∈ m, c.1 ≠ a) : Memory.cell (Memory.insert m a v) a = v := by
  induction m with
  | nil => simp [Memory.insert, Memory.cell]
  | cons c m ih =>
    obtain ⟨x, w⟩ := c
    have hx : x ≠ a := h (x, w) (by simp)
    by_cases hlt : a < x
    · simp [Memory.insert, Memory.cell, hlt]
    · simp [Memory.insert, Memory.cell, hlt, hx, ih (fun c hc => h c (by simp [hc]))]

theorem mem_erase (c : Nat × Int) : c ∈ Memory.erase m a ↔ c ∈ m ∧ c.1 ≠ a := by
  induction m with
  | nil => simp [Memory.erase]
  | cons d m ih =>
    obtain ⟨x, w⟩ := d
    by_cases hx : x = a
    · simp only [Memory.erase, hx, if_true, ih, List.mem_cons]
      constructor
      · rintro ⟨h, h'⟩; exact ⟨.inr h, h'⟩
      · rintro ⟨rfl | h, h'⟩
        · exact absurd rfl h'
        · exact ⟨h, h'⟩
    · simp only [Memory.erase, hx, if_false, ih, List.mem_cons]
      constructor
      · rintro (rfl | ⟨h, h'⟩)
        · exact ⟨.inl rfl, hx⟩
        · exact ⟨.inr h, h'⟩
      · rintro ⟨rfl | h, h'⟩
        · exact .inl rfl
        · exact .inr ⟨h, h'⟩

theorem mem_insert (c : Nat × Int) : c ∈ Memory.insert m a v ↔ c = (a, v) ∨ c ∈ m := by
  induction m with
  | nil => simp [Memory.insert]
  | cons d m ih =>
    obtain ⟨x, w⟩ := d
    by_cases hx : a < x
    · simp [Memory.insert, hx]
    · simp only [Memory.insert, hx, if_false, List.mem_cons, ih]
      tauto

/-- A read after a write: the written cell holds the value, every other cell is as before. -/
@[simp] theorem cell_store :
    Memory.cell (Memory.store m a v) b = if b = a then v else Memory.cell m b := by
  by_cases hv : v = 0
  · simp [Memory.store, hv, cell_erase]
  · by_cases hb : b = a
    · subst hb
      simp [Memory.store, hv, cell_insert_self _ b v (fun c hc => ((mem_erase m b c).1 hc).2)]
    · simp [Memory.store, hv, hb, cell_insert_ne _ a b v hb, cell_erase]

theorem wf_cons (x : Nat) (w : Int) :
    Memory.wf ((x, w) :: m) = true ↔ w ≠ 0 ∧ (∀ c ∈ m, x < c.1) ∧ Memory.wf m = true := by
  simp [Memory.wf, and_assoc]

theorem wf_erase (h : Memory.wf m = true) : Memory.wf (Memory.erase m a) = true := by
  induction m with
  | nil => exact h
  | cons c m ih =>
    obtain ⟨x, w⟩ := c
    obtain ⟨hw, hlt, hm⟩ := (wf_cons m x w).1 h
    by_cases hx : x = a
    · simpa [Memory.erase, hx] using ih hm
    · simp only [Memory.erase, hx, if_false]
      exact (wf_cons _ x w).2 ⟨hw, fun c hc => hlt c ((mem_erase m a c).1 hc).1, ih hm⟩

theorem wf_insert (hv : v ≠ 0) (ha : ∀ c ∈ m, c.1 ≠ a) (h : Memory.wf m = true) :
    Memory.wf (Memory.insert m a v) = true := by
  induction m with
  | nil => simp [Memory.insert, Memory.wf, hv]
  | cons c m ih =>
    obtain ⟨x, w⟩ := c
    obtain ⟨hw, hlt, hm⟩ := (wf_cons m x w).1 h
    by_cases hx : a < x
    · simp only [Memory.insert, hx, if_true]
      refine (wf_cons _ a v).2 ⟨hv, fun c hc => ?_, h⟩
      rcases List.mem_cons.1 hc with rfl | hc
      · exact hx
      · exact hx.trans (hlt c hc)
    · have hxa : x < a := lt_of_le_of_ne (not_lt.1 hx) (ha (x, w) (by simp))
      simp only [Memory.insert, hx, if_false]
      refine (wf_cons _ x w).2 ⟨hw, fun c hc => ?_, ih (fun c hc => ha c (by simp [hc])) hm⟩
      rcases (mem_insert m a v c).1 hc with rfl | hc
      · exact hxa
      · exact hlt c hc

/-- A write keeps the canonical form. -/
theorem wf_store (h : Memory.wf m = true) : Memory.wf (Memory.store m a v) = true := by
  by_cases hv : v = 0
  · simpa [Memory.store, hv] using wf_erase m a h
  · simpa [Memory.store, hv] using
      wf_insert _ a v hv (fun c hc => ((mem_erase m a c).1 hc).2) (wf_erase m a h)

/-- The entries after a write: the written one, where it is not 0, and those of the other addresses. -/
theorem mem_store (c : Nat × Int) :
    c ∈ Memory.store m a v ↔ (v ≠ 0 ∧ c = (a, v)) ∨ (c ∈ m ∧ c.1 ≠ a) := by
  by_cases hv : v = 0
  · simp [Memory.store, hv, mem_erase]
  · simp [Memory.store, hv, mem_erase, mem_insert]

/-- A cell reads as 0 or as the value of an entry for it. -/
theorem cell_eq_zero_or_mem : Memory.cell m a = 0 ∨ (a, Memory.cell m a) ∈ m := by
  induction m with
  | nil => exact .inl rfl
  | cons c m ih =>
    obtain ⟨x, w⟩ := c
    by_cases hx : x = a
    · subst hx; simp [Memory.cell]
    · rcases ih with h | h
      · exact .inl (by simp [Memory.cell, hx, h])
      · exact .inr (by simp [Memory.cell, hx, h])

/-- The memory of reset is canonical. -/
theorem wf_reset : Memory.wf State.reset.mem = true := rfl

end Sys2Proof.Machine
end

