-- ==== Sys2Proof/Laws/State.lean ====
section
/-! SUPPORT. What each field of the state is after each update: one lemma per field, so that no later proof
unfolds a record update. -/

namespace Sys2Proof.Machine

variable (s : State) (info : FaultInfo) (n : Nat) (w : CellWrite) (e : AccessError)
  (k : Nat) (B bytes : List Byte)

@[simp] theorem resetWith_mem : (State.resetWith k B).mem = [] := rfl
@[simp] theorem resetWith_pc : (State.resetWith k B).pc = 0 := rfl
@[simp] theorem resetWith_runState : (State.resetWith k B).runState = .running := rfl
@[simp] theorem resetWith_fault : (State.resetWith k B).fault = none := rfl
@[simp] theorem resetWith_cfg : (State.resetWith k B).cfg = ⟨k, B⟩ := rfl

@[simp] theorem enterFault_mem : (s.enterFault info).mem = s.mem := rfl
@[simp] theorem enterFault_pc : (s.enterFault info).pc = s.pc := rfl
@[simp] theorem enterFault_runState : (s.enterFault info).runState = .faulted := rfl
@[simp] theorem enterFault_fault : (s.enterFault info).fault = some ⟨s.pc, info⟩ := rfl
@[simp] theorem enterFault_cfg : (s.enterFault info).cfg = s.cfg := rfl

@[simp] theorem halt_mem : s.halt.mem = s.mem := rfl
@[simp] theorem halt_pc : s.halt.pc = s.pc := rfl
@[simp] theorem halt_runState : s.halt.runState = .halted := rfl
@[simp] theorem halt_fault : s.halt.fault = s.fault := rfl
@[simp] theorem halt_cfg : s.halt.cfg = s.cfg := rfl

@[simp] theorem commit_ok_mem : (s.commit n (.ok w)).mem = Memory.store s.mem w.addr w.value := rfl
@[simp] theorem commit_ok_pc : (s.commit n (.ok w)).pc = s.pc + n := rfl
@[simp] theorem commit_ok_runState : (s.commit n (.ok w)).runState = s.runState := rfl
@[simp] theorem commit_ok_fault : (s.commit n (.ok w)).fault = s.fault := rfl
@[simp] theorem commit_ok_cfg : (s.commit n (.ok w)).cfg = s.cfg := rfl
@[simp] theorem commit_error :
    s.commit n (.error e) = s.enterFault (.outOfRangeAddress e.address e.kind) := rfl

@[simp] theorem loadAtPc_mem : (s.loadAtPc bytes).mem = s.mem := rfl
@[simp] theorem loadAtPc_pc : (s.loadAtPc bytes).pc = s.pc := rfl
@[simp] theorem loadAtPc_runState : (s.loadAtPc bytes).runState = .running := rfl
@[simp] theorem loadAtPc_fault : (s.loadAtPc bytes).fault = none := rfl
@[simp] theorem loadAtPc_memSize : (s.loadAtPc bytes).cfg.memSize = s.cfg.memSize := rfl
@[simp] theorem loadAtPc_program :
    (s.loadAtPc bytes).cfg.program = placeBytes s.cfg.program s.pc bytes := rfl

end Sys2Proof.Machine
end

