-- ==== Sys2Proof/Laws/Ops.lean ====
section
/-! SUPPORT. What each shared operation can do, said once: the bounds-checked accesses, the end of an
instruction, and the outcomes of `exec` and `step`. -/

namespace Sys2Proof.Machine

variable (s : State) (a v : Int) (base offset : Nat)

theorem inRange_iff : s.inRange a = true ↔ 0 ≤ a ∧ a < s.cfg.memSize := by simp [State.inRange]

theorem inRange_eq_false : s.inRange a = false ↔ ¬(0 ≤ a ∧ a < s.cfg.memSize) := by
  rw [← Bool.not_eq_true, inRange_iff]

@[simp] theorem inRange_directAddr (f : Nat) : s.inRange (directAddr f) = decide (f < s.cfg.memSize) := by
  simp [State.inRange, directAddr]

@[simp] theorem cellAt_directAddr (f : Nat) : s.cellAt (directAddr f) = Memory.cell s.mem f := rfl

/-- The effective address as the rules write it: the base cell plus the offset (R106). -/
theorem rawEffectiveAddr_eq :
    s.rawEffectiveAddr base offset = Memory.cell s.mem base + offset := rfl

theorem memRead_ok (h : s.inRange a = true) : s.memRead a = .ok (s.cellAt a) := by
  simp [State.memRead, h]

theorem memRead_error (h : s.inRange a = false) : s.memRead a = .error ⟨a, .read⟩ := by
  simp [State.memRead, h]

theorem memWrite_ok (h : s.inRange a = true) : s.memWrite a v = .ok ⟨a.toNat, v⟩ := by
  simp [State.memWrite, h]

theorem memWrite_error (h : s.inRange a = false) : s.memWrite a v = .error ⟨a, .write⟩ := by
  simp [State.memWrite, h]

theorem effectiveAddr_ok (h : s.inRange (directAddr base) = true) :
    s.effectiveAddr base offset = .ok (s.rawEffectiveAddr base offset) := by
  unfold State.effectiveAddr
  rw [memRead_ok s _ h]
  rfl

theorem effectiveAddr_error (h : s.inRange (directAddr base) = false) :
    s.effectiveAddr base offset = .error ⟨directAddr base, .read⟩ := by
  unfold State.effectiveAddr
  rw [memRead_error s _ h]
  rfl

/-- The accesses of any instruction as `exec` performs them. -/
def ruleOf (s : State) : Instr → Except AccessError CellWrite
  | .loadConst constant address => loadConstRule constant address s
  | .gte offset1 addr1 addr2 resAddr offset2 => gteRule offset1 addr1 addr2 resAddr offset2 s
  | .writeMem srcAddr dstAddr => writeMemRule srcAddr dstAddr s
  | .readMem offset srcAddr dstAddr => readMemRule offset srcAddr dstAddr s

/-- Every instruction ends as `State.commit` says, with its own length. -/
theorem exec_eq_commit (i : Instr) : exec i s = .next (s.commit i.length (ruleOf s i)) := by
  cases i <;> rfl

/-- A write that the bounds check admits is the write asked for. -/
theorem memWrite_eq_ok {w : CellWrite} (h : s.memWrite a v = .ok w) :
    s.inRange a = true ∧ w = ⟨a.toNat, v⟩ := by
  cases hr : s.inRange a with
  | false => simp [memWrite_error s a v hr] at h
  | true => simp [memWrite_ok s a v hr] at h; exact ⟨rfl, h.symm⟩

/-- A read that the bounds check admits gives the cell. -/
theorem memRead_eq_ok {a v : Int} (h : s.memRead a = .ok v) :
    s.inRange a = true ∧ v = s.cellAt a := by
  cases hr : s.inRange a with
  | false => simp [memRead_error s a hr] at h
  | true => simp [memRead_ok s a hr] at h; exact ⟨rfl, h.symm⟩

/-- An address in range names a cell the machine has. -/
theorem toNat_lt_of_inRange {a : Int} (h : s.inRange a = true) : a.toNat < s.cfg.memSize := by
  have := (inRange_iff s a).1 h
  omega

/-- A refused access names an address that is out of range. -/
theorem memRead_eq_error {e : AccessError} (h : s.memRead a = .error e) :
    s.inRange a = false ∧ e = ⟨a, .read⟩ := by
  cases hr : s.inRange a with
  | true => simp [memRead_ok s a hr] at h
  | false => simp [memRead_error s a hr] at h; exact ⟨rfl, h.symm⟩

/-- An instruction ends in its write and the advance of PC, or in the fault of an access. -/
theorem commit_cases (n : Nat) (r : Except AccessError CellWrite) :
    (∃ w, r = .ok w ∧ (s.commit n r).mem = Memory.store s.mem w.addr w.value ∧
      (s.commit n r).pc = s.pc + n ∧ (s.commit n r).runState = s.runState ∧
      (s.commit n r).fault = s.fault ∧ (s.commit n r).cfg = s.cfg) ∨
    (∃ e, r = .error e ∧ s.commit n r = s.enterFault (.outOfRangeAddress e.address e.kind)) := by
  cases r with
  | ok w => exact .inl ⟨w, rfl, rfl, rfl, rfl, rfl, rfl⟩
  | error e => exact .inr ⟨e, rfl, rfl⟩

theorem commit_cfg (n : Nat) (r : Except AccessError CellWrite) : (s.commit n r).cfg = s.cfg := by
  cases r <;> rfl

variable {s}

/-- What an instruction's accesses come to, by the access table (R116): the error of the first access out of
range, or, if there is none, the write the table ends with. -/
theorem ruleOf_eq (i : Instr) :
    (∃ e, s.firstFailing i = some e ∧ ruleOf s i = .error e) ∨
    (s.firstFailing i = none ∧ ∃ c, (s.accesses i).getLast? = some c ∧
      s.inRange c.address = true ∧ ruleOf s i = .ok ⟨c.address.toNat, c.value⟩) := by
  cases i with
  | loadConst c a =>
    cases h1 : s.inRange (directAddr a) <;>
      simp [State.firstFailing, State.accesses, List.find?, h1, ruleOf, loadConstRule,
        memWrite_ok, memWrite_error]
  | writeMem p q =>
    cases h1 : s.inRange (directAddr p) <;> cases h2 : s.inRange (directAddr q) <;>
      simp [State.firstFailing, State.accesses, State.readAccess, List.find?, h1, h2, ruleOf,
        writeMemRule, memWrite_ok, memWrite_error, memRead_ok, memRead_error, bind, Except.bind]
  | readMem o p q =>
    cases h1 : s.inRange (directAddr p) <;> cases h2 : s.inRange (s.rawEffectiveAddr p o) <;>
      cases h3 : s.inRange (directAddr q) <;>
      simp [State.firstFailing, State.accesses, State.readAccess, List.find?, h1, h2, h3, ruleOf,
        readMemRule, memWrite_ok, memWrite_error, memRead_ok, memRead_error, effectiveAddr_ok,
        effectiveAddr_error, bind, Except.bind]
  | gte o1 p1 p2 pr o2 =>
    cases h1 : s.inRange (directAddr p1) <;> cases h2 : s.inRange (directAddr pr) <;>
      cases h3 : s.inRange (s.rawEffectiveAddr p1 o1) <;> cases h4 : s.inRange (directAddr p2) <;>
      cases h5 : s.inRange (s.rawEffectiveAddr pr o2) <;>
      simp [State.firstFailing, State.accesses, State.readAccess, List.find?, h1, h2, h3, h4, h5,
        ruleOf, gteRule, memWrite_ok, memWrite_error, memRead_ok, memRead_error, effectiveAddr_ok,
        effectiveAddr_error, bind, Except.bind]

/-- An instruction writes only to a cell the machine has. -/
theorem ruleOf_ok_inRange {i : Instr} {w : CellWrite} (h : ruleOf s i = .ok w) :
    w.addr < s.cfg.memSize := by
  rcases ruleOf_eq (s := s) i with ⟨e, _, he⟩ | ⟨_, c, _, hr, hc⟩
  · rw [h] at he; cases he
  · rw [h] at hc; injection hc with hc; subst hc
    exact toNat_lt_of_inRange s hr

/-- The three kinds of value an instruction writes. -/
theorem ruleOf_ok_value {i : Instr} {w : CellWrite} (h : ruleOf s i = .ok w) :
    (∃ c a, i = .loadConst c a ∧ w.value = c) ∨
    (∃ x, x < s.cfg.memSize ∧ ((∃ o p q, i = .readMem o p q) ∨ ∃ p q, i = .writeMem p q) ∧
      w.value = Memory.cell s.mem x) ∨
    ((∃ o1 p1 p2 pr o2, i = .gte o1 p1 p2 pr o2) ∧ (w.value = 0 ∨ w.value = 1)) := by
  cases i with
  | loadConst c a =>
    obtain ⟨-, rfl⟩ := memWrite_eq_ok _ _ _ h
    exact .inl ⟨c, a, rfl, rfl⟩
  | gte o1 p1 p2 pr o2 =>
    simp only [ruleOf, gteRule, bind, Except.bind] at h
    repeat' (split at h)
    all_goals first | cases h | skip
    obtain ⟨-, rfl⟩ := memWrite_eq_ok _ _ _ h
    refine .inr (.inr ⟨⟨_, _, _, _, _, rfl⟩, ?_⟩)
    show aluGe _ _ = 0 ∨ aluGe _ _ = 1
    unfold aluGe; split <;> simp
  | writeMem p q =>
    simp only [ruleOf, writeMemRule, bind, Except.bind] at h
    split at h
    · cases h
    · rename_i v hv
      obtain ⟨-, rfl⟩ := memWrite_eq_ok _ _ _ h
      obtain ⟨hx, hv⟩ := memRead_eq_ok s hv
      exact .inr (.inl ⟨_, toNat_lt_of_inRange s hx, .inr ⟨_, _, rfl⟩, hv⟩)
  | readMem o p q =>
    simp only [ruleOf, readMemRule, bind, Except.bind] at h
    repeat' (split at h)
    all_goals first | cases h | skip
    rename_i v hv
    obtain ⟨-, rfl⟩ := memWrite_eq_ok _ _ _ h
    obtain ⟨hx, hv⟩ := memRead_eq_ok s hv
    exact .inr (.inl ⟨_, toNat_lt_of_inRange s hx, .inl ⟨_, _, _, rfl⟩, hv⟩)

/-- A failing instruction's error is the first access out of range. -/
theorem firstFailing_of_error {i : Instr} {e : AccessError} (h : ruleOf s i = .error e) :
    s.firstFailing i = some e := by
  rcases ruleOf_eq (s := s) i with ⟨e', hf, he⟩ | ⟨_, c, _, _, hc⟩
  · rw [h] at he; injection he with he; rw [hf, he]
  · rw [h] at hc; cases hc

theorem cellsLegal_iff :
    s.cellsLegal = true ↔ ∀ c ∈ s.mem, c.1 < s.cfg.memSize ∧ 0 ≤ c.2 ∧ c.2 ≤ 2047 := by
  simp [State.cellsLegal, and_assoc]

/-- Where the listed cells are legal, every cell is in [0, 2047]. -/
theorem cell_le_2047 (h : s.cellsLegal = true) (a : Nat) :
    0 ≤ Memory.cell s.mem a ∧ Memory.cell s.mem a ≤ 2047 := by
  rcases cell_eq_zero_or_mem s.mem a with h0 | h0
  · simp [h0]
  · exact (cellsLegal_iff.1 h _ h0).2

/-- Everything a step that answers a next state can have done (R90). -/
theorem step_next_cases {s t : State} (h : step s = .next t) :
    s.runState = .running ∧
    ((decode s.cfg.program s.pc = .endOfStream ∧ t = s.halt) ∨
     (∃ op, decode s.cfg.program s.pc = .unknownOpcode op ∧ t = s.enterFault (.unknownOpcode op)) ∨
     (∃ op needed available, decode s.cfg.program s.pc = .truncated op needed available ∧
        t = s.enterFault (.truncatedInstruction op needed available)) ∨
     (∃ i n, decode s.cfg.program s.pc = .instr i n ∧ t = s.commit i.length (ruleOf s i))) := by
  unfold step at h
  cases hs : s.runState with
  | halted => simp [hs] at h
  | faulted => simp [hs] at h
  | running =>
    refine ⟨rfl, ?_⟩
    cases hd : decode s.cfg.program s.pc with
    | endOfStream => simp [hs, hd] at h; exact .inl ⟨rfl, h.symm⟩
    | unknownOpcode op => simp [hs, hd] at h; exact .inr (.inl ⟨op, rfl, h.symm⟩)
    | truncated op n k => simp [hs, hd] at h; exact .inr (.inr (.inl ⟨op, n, k, rfl, h.symm⟩))
    | instr i n =>
      simp [hs, hd, exec_eq_commit] at h
      exact .inr (.inr (.inr ⟨i, n, rfl, h.symm⟩))

end Sys2Proof.Machine
end

