-- ==== Sys2Proof/Laws/PerInstr.lean ====
section
/-! SUPPORT. A statement about every instruction as syntax, one lemma per constructor: the encoder's integer
fits the bits the format uses, so the padding above them is 0 (R63), and carries the opcode in its low seven
bits (R72). -/

namespace Sys2Proof.Laws

/-- The encoded word of a well-formed instruction uses the format's bits and no more, opcode lowest. -/
def WordFits.Statement (i : Instr) : Prop :=
  i.wellFormed = true →
    encodeWord i < 2 ^ i.opcode.usedBits ∧ encodeWord i % 128 = i.opcode.code.toNat

theorem WordFits.loadConst (constant address : Nat) :
    WordFits.Statement (.loadConst constant address) := by
  intro h
  obtain ⟨h1, h2⟩ := (wellFormed_loadConst _ _).1 h
  rw [encodeWord_loadConst h]
  simp only [Instr.opcode, Opcode.usedBits, Opcode.code, BitVec.toNat_ofNat]
  omega

theorem WordFits.writeMem (srcAddr dstAddr : Nat) :
    WordFits.Statement (.writeMem srcAddr dstAddr) := by
  intro h
  obtain ⟨h1, h2⟩ := (wellFormed_writeMem _ _).1 h
  rw [encodeWord_writeMem h]
  simp only [Instr.opcode, Opcode.usedBits, Opcode.code, BitVec.toNat_ofNat]
  omega

theorem WordFits.readMem (offset srcAddr dstAddr : Nat) :
    WordFits.Statement (.readMem offset srcAddr dstAddr) := by
  intro h
  obtain ⟨h1, h2, h3⟩ := (wellFormed_readMem _ _ _).1 h
  rw [encodeWord_readMem h]
  simp only [Instr.opcode, Opcode.usedBits, Opcode.code, BitVec.toNat_ofNat]
  omega

theorem WordFits.gte (offset1 addr1 addr2 resAddr offset2 : Nat) :
    WordFits.Statement (.gte offset1 addr1 addr2 resAddr offset2) := by
  intro h
  obtain ⟨h1, h2, h3, h4, h5⟩ := (wellFormed_gte _ _ _ _ _).1 h
  rw [encodeWord_gte h]
  simp only [Instr.opcode, Opcode.usedBits, Opcode.code, BitVec.toNat_ofNat]
  omega

end Sys2Proof.Laws
end

