-- ==== Sys2Proof/Tests/Slice0.lean ====
section
/-! SUPPORT. The model's own tests. Expected values are those of spec/95_test_vectors.md (the vector is named)
or counted by hand from the rule named. After them, a witness for each obligation that has hypotheses. -/

namespace Sys2Proof.Tests

open Sys2Proof.Machine

/-- A running state at PC 0. -/
def st (memSize : Nat) (mem : Memory) (program : List Byte) : State :=
  { mem := mem, pc := 0, runState := .running, fault := none,
    cfg := { memSize := memSize, program := program } }

/-- The next state, if there is one. -/
def nextOf (o : Host.Outcome State Machine.Fault Refusal) : Option State :=
  match o with
  | .next t => some t
  | .fault _ => none
  | .refused _ => none

/-! ### WellFormed: for each check a term it refuses (R9, 95 section 1.1) -/

theorem test_wellFormed_refuses_loadConst :
    (Instr.loadConst 2048 0).wellFormed = false ∧ (Instr.loadConst 0 67108864).wellFormed = false ∧
    (Instr.loadConst 2047 67108863).wellFormed = true := by decide

theorem test_wellFormed_refuses_readMem :
    (Instr.readMem 256 0 0).wellFormed = false ∧ (Instr.readMem 0 67108864 0).wellFormed = false ∧
    (Instr.readMem 0 0 67108864).wellFormed = false ∧
    (Instr.readMem 255 67108863 67108863).wellFormed = true := by decide

theorem test_wellFormed_refuses_writeMem :
    (Instr.writeMem 67108864 0).wellFormed = false ∧ (Instr.writeMem 0 67108864).wellFormed = false ∧
    (Instr.writeMem 67108863 67108863).wellFormed = true := by decide

theorem test_wellFormed_refuses_gte :
    (Instr.gte 256 0 0 0 0).wellFormed = false ∧ (Instr.gte 0 67108864 0 0 0).wellFormed = false ∧
    (Instr.gte 0 0 67108864 0 0).wellFormed = false ∧
    (Instr.gte 0 0 0 67108864 0).wellFormed = false ∧ (Instr.gte 0 0 0 0 256).wellFormed = false ∧
    (Instr.gte 255 67108863 67108863 67108863 255).wellFormed = true := by decide

/-- R83: an operand that does not fit is reported with its value. -/
theorem test_validate_reports_operand :
    (match (Instr.loadConst 2048 0).validate with
      | .ok _ => none
      | .error e => some (e.operand.name, e.operand.value, e.operand.width)) =
    some ("constant", 2048, 11) := by decide

/-! ### Encodings (95 section 2.1) -/

theorem test_encode_loadConst : encode (.loadConst 2047 67108863) =
    [0xEF, 0xFF, 0xFF, 0xFF, 0xFF, 0x0F] := by decide

theorem test_encode_writeMem : encode (.writeMem 1 2) =
    [0xE5, 0x00, 0x00, 0x00, 0x04, 0x00, 0x00, 0x00] := by decide

theorem test_encode_readMem : encode (.readMem 255 0 0) =
    [0xA8, 0x7F, 0x00, 0x00, 0x00, 0x00, 0x00, 0x00, 0x00] := by decide

theorem test_encode_gte : encode (.gte 21 30 20 31 5) =
    [0xC4, 0x0A, 0x0F, 0x00, 0x00, 0x28, 0x00, 0x00, 0xF8, 0x00, 0x00, 0xA0, 0x00] := by decide

theorem test_decode_loadConst : decode [0x6F, 0x00, 0xFC, 0xFF, 0xFF, 0x0F] 0 =
    .instr (.loadConst 0 67108863) 6 := by decide

theorem test_decode_writeMem : decode [0x65, 0x00, 0x00, 0x00, 0xFE, 0xFF, 0xFF, 0x07] 0 =
    .instr (.writeMem 0 67108863) 8 := by decide

theorem test_decode_readMem : decode [0x28, 0x80, 0xFF, 0xFF, 0xFF, 0x01, 0x00, 0x00, 0x00] 0 =
    .instr (.readMem 0 67108863 0) 9 := by decide

theorem test_decode_gte : decode
    [0x44, 0x00, 0x00, 0x00, 0x00, 0x00, 0x00, 0x00, 0xF8, 0xFF, 0xFF, 0x1F, 0x00] 0 =
    .instr (.gte 0 0 0 67108863 0) 13 := by decide

/-- Padding bits set (R78). -/
theorem test_decode_ignores_padding :
    decode [0xEF, 0xFF, 0xFF, 0xFF, 0xFF, 0xFF] 0 = .instr (.loadConst 2047 67108863) 6 ∧
    decode [0x44, 0x00, 0x00, 0x00, 0x00, 0x00, 0x00, 0x00, 0x00, 0x00, 0x00, 0xE0, 0xFF] 0 =
      .instr (.gte 0 0 0 0 255) 13 := by decide

/-- Bit 7 is not opcode (R72); neighbours of the legal opcodes are unknown (R77). -/
theorem test_decode_unknown :
    decode [0x80] 0 = .unknownOpcode 0 ∧ decode [0xFF] 0 = .unknownOpcode 127 ∧
    decode [0x6E] 0 = .unknownOpcode 110 ∧ decode [0x45] 0 = .unknownOpcode 69 := by decide

/-- Cut short (R80). -/
theorem test_decode_truncated :
    decode [0x6F, 0x00, 0x00, 0x00, 0x00] 0 = .truncated 111 6 5 ∧
    decode [0xC4] 0 = .truncated 68 13 1 := by decide

/-- Bytes past the stream's end at the PC are none (R94). -/
theorem test_decode_end : decode [0x6F] 1 = .endOfStream := by decide

/-- The host's words: each decodes, and runs as the first instruction after reset. -/
theorem test_words_run_after_reset :
    decodeTableWord 48 0x6F = some (.loadConst 0 0) ∧
    (nextOf (step (State.reset.withFetchWord 48 0x6F))).isSome = true ∧
    (nextOf (step (State.reset.withFetchWord 104 0x44))).isSome = true ∧
    (nextOf (step (State.reset.withFetchWord 64 0x65))).isSome = true ∧
    (nextOf (step (State.reset.withFetchWord 72 0x28))).isSome = true := by decide

/-! ### One step of each instruction, MEM_SIZE = 16 -/

/-- L1. -/
theorem test_loadConst_top_cell :
    (nextOf (step (st 16 [] [0xEF, 0xFF, 0x3F, 0x00, 0x00, 0x00]))).map (fun t => (t.mem, t.pc)) =
    some ([(15, 2047)], 6) := by decide

/-- L3: one past the last cell. -/
theorem test_loadConst_out_of_range :
    (nextOf (step (st 16 [] [0xEF, 0x00, 0x40, 0x00, 0x00, 0x00]))).map
      (fun t => (t.pc, t.fault)) =
    some (0, some { pc := 0, info := .outOfRangeAddress 16 .write }) := by decide

/-- R3: the base cell is the destination; the base is read first. -/
theorem test_readMem_destination_is_base :
    (nextOf (step (st 16 [(1, 5), (6, 9)]
      [0xA8, 0x80, 0x00, 0x00, 0x00, 0x02, 0x00, 0x00, 0x00]))).map (fun t => (t.mem, t.pc)) =
    some ([(1, 9), (6, 9)], 9) := by decide

/-- R6: check 2, the effective address. -/
theorem test_readMem_effective_out_of_range :
    (nextOf (step (st 16 [(0, 15)]
      [0xA8, 0x00, 0x00, 0x00, 0x00, 0x04, 0x00, 0x00, 0x00]))).map (fun t => (t.mem, t.fault)) =
    some ([(0, 15)], some { pc := 0, info := .outOfRangeAddress 16 .read }) := by decide

/-- W1. -/
theorem test_writeMem_copies :
    (nextOf (step (st 16 [(3, 42)] [0xE5, 0x01, 0x00, 0x00, 0x08, 0x00, 0x00, 0x00]))).map
      (fun t => (t.mem, t.pc)) = some ([(3, 42), (4, 42)], 8) := by decide

/-- W5: the first failing check wins. -/
theorem test_writeMem_first_check_wins :
    (nextOf (step (st 16 [] [0x65, 0x08, 0x00, 0x00, 0x22, 0x00, 0x00, 0x00]))).map
      (fun t => (t.runState, t.fault)) =
    some (.faulted, some { pc := 0, info := .outOfRangeAddress 16 .read }) := by decide

/-- G8: the result overwrites operand 2's cell. -/
theorem test_gte_result_over_operand :
    (nextOf (step (st 16 [(3, 8), (7, 9), (10, 5), (11, 2)]
      [0x44, 0x01, 0x05, 0x00, 0x00, 0x06, 0x00, 0x00, 0x58, 0x00, 0x00, 0x20, 0x00]))).map
      (fun t => (t.mem, t.pc)) =
    some ([(3, 1), (7, 9), (10, 5), (11, 2)], 13) := by decide

/-- G13: check 5, the result address. -/
theorem test_gte_result_out_of_range :
    (nextOf (step (st 16 [(1, 15)]
      [0x44, 0x00, 0x00, 0x00, 0x00, 0x00, 0x00, 0x00, 0x08, 0x00, 0x00, 0x20, 0x00]))).map
      (fun t => (t.mem, t.fault)) =
    some ([(1, 15)], some { pc := 0, info := .outOfRangeAddress 16 .write }) := by decide

/-! ### The step and the ports -/

/-- 95 section 2.2, first row: the empty stream halts at once. -/
theorem test_step_halts_on_empty_stream :
    (nextOf (step (st 4 [] []))).map State.status =
    some { runState := .halted, pc := 0, fault := none } := by decide

/-- P4's second step, at PC 6. -/
theorem test_step_unknown_opcode :
    (nextOf (step { st 8 [(0, 1)] [0xEF, 0x00, 0x00, 0x00, 0x00, 0x00, 0x00, 0x6F] with pc := 6 })).map
      State.status =
    some { runState := .faulted, pc := 6, fault := some { pc := 6, info := .unknownOpcode 0 } } := by
  decide

/-- P5's second step, at PC 6. -/
theorem test_step_truncated :
    (nextOf (step { st 8 [(0, 1)] [0xEF, 0x00, 0x00, 0x00, 0x00, 0x00, 0x65, 0x00, 0x00] with
      pc := 6 })).map State.status =
    some { runState := .faulted, pc := 6,
           fault := some { pc := 6, info := .truncatedInstruction 101 8 3 } } := by decide

/-- R91: no transition from Halted. -/
theorem test_step_stops_when_halted : step (st 4 [] []).halt = .fault .alreadyHalted := rfl

/-- R113. -/
theorem test_fault_codes :
    [FaultInfo.unknownOpcode 0, .outOfRangeAddress 0 .read, .truncatedInstruction 0 0 0].map
      FaultInfo.code = [1, 2, 3] := by decide

/-- 95 section 2.7. -/
theorem test_readRange :
    (st 4 [(0, 5), (2, 7), (3, 1)] []).readRange 1 2 = [(1, 0), (2, 7)] ∧
    (st 4 [(0, 5), (2, 7), (3, 1)] []).readRange 2 10 = [(2, 7), (3, 1)] ∧
    (st 4 [(0, 5), (2, 7), (3, 1)] []).readRange 3 1 = [] := by decide

/-- R6 of 95 section 2.4: the trace of a failing ReadMem holds the base read and the failed check. -/
theorem test_trace_of_failing_read :
    (st 16 [(0, 15)] [0xA8, 0x00, 0x00, 0x00, 0x00, 0x04, 0x00, 0x00, 0x00]).trace =
    some { instr := .readMem 1 0 2, performed := [⟨.read, 0, 15⟩], failed := some ⟨16, .read⟩ } := by
  decide

/-! ### Witnesses: states and operands that meet each obligation's hypotheses -/

/-- LOAD_CONST 42 3 in 16 cells. -/
def sLoad : State := st 16 [] [0x6F, 0x15, 0x0C, 0x00, 0x00, 0x00]

/-- The state after it. -/
def tLoad : State := { st 16 [(3, 42)] [0x6F, 0x15, 0x0C, 0x00, 0x00, 0x00] with pc := 6 }

/-- LOAD_CONST 1 16 in 16 cells, which faults. -/
def sBad : State := st 16 [] [0xEF, 0x00, 0x40, 0x00, 0x00, 0x00]

/-- The state after it. -/
def tBad : State :=
  { sBad with runState := .faulted, fault := some { pc := 0, info := .outOfRangeAddress 16 .write } }

theorem step_sLoad : step sLoad = .next tLoad := rfl

theorem step_sBad : step sBad = .next tBad := rfl

theorem step_tLoad : step tLoad = .next tLoad.halt := rfl

theorem reachable_tLoad : Reachable tLoad :=
  .step (.reset 16 [0x6F, 0x15, 0x0C, 0x00, 0x00, 0x00]) step_sLoad

theorem reachable_tBad : Reachable tBad :=
  .step (.reset 16 [0xEF, 0x00, 0x40, 0x00, 0x00, 0x00]) step_sBad

theorem witness_ConfigurationIsFixed : ∃ s t : State, step s = .next t := ⟨_, _, step_sLoad⟩

theorem witness_EveryStepKeepsTheInvariant :
    ∃ s t : State, s.Inv ∧ step s = .next t ∧ t.mem ≠ s.mem :=
  ⟨_, _, by decide, step_sLoad, by decide⟩

theorem witness_ReachableCellsAndAddressesBounded :
    ∃ s : State, Reachable s ∧ s.mem ≠ [] ∧ (255 : Nat) < 2 ^ 8 :=
  ⟨_, reachable_tLoad, by decide, by decide⟩

theorem witness_PcAdvancesByLengthWithinStream :
    (∃ (s t : State) (i : Instr) (n : Nat), s.runState = .running ∧
      decode s.cfg.program s.pc = .instr i n ∧ step s = .next t ∧ t.runState = .running) ∧
    ∃ s : State, Reachable s ∧ s.runState = .halted :=
  ⟨⟨sLoad, tLoad, .loadConst 42 3, 6, rfl, by decide, step_sLoad, rfl⟩,
   ⟨tLoad.halt, .step reachable_tLoad step_tLoad, rfl⟩⟩

theorem witness_FaultRecordFitsTheFault :
    (∃ s : State, Reachable s ∧ s.runState ≠ .faulted) ∧
    ∃ s : State, Reachable s ∧ s.runState = .faulted :=
  ⟨⟨_, reachable_tLoad, by decide⟩, ⟨_, reachable_tBad, rfl⟩⟩

theorem witness_StepRunsTheInstructionAtPc :
    ∃ (s : State) (i : Instr), s.runState = .running ∧ i.wellFormed = true ∧
      decode s.cfg.program s.pc = .instr i 6 ∧
      (s.cfg.program.drop s.pc).take i.length = encode i :=
  ⟨sLoad, .loadConst 42 3, rfl, by decide, by decide, by decide⟩

theorem witness_HaltTransitionChangesOnlyRunState :
    ∃ s : State, s.runState = .running ∧ s.cfg.program.length ≤ s.pc := ⟨tLoad, rfl, by decide⟩

theorem witness_UnknownOpcodeIsTakenAsFault :
    ∃ (s : State) (b : Byte), s.runState = .running ∧ s.cfg.program[s.pc]? = some b ∧
      b.toNat % 128 ≠ 40 ∧ b.toNat % 128 ≠ 68 ∧ b.toNat % 128 ≠ 101 ∧ b.toNat % 128 ≠ 111 :=
  ⟨st 4 [] [0xF0], 0xF0, by decide⟩

/-- One byte too few for each of the four lengths. -/
theorem witness_TruncatedInstructionIsTakenAsFault :
    ∀ p ∈ [(0x28#8, 40, 9), (0xC4#8, 68, 13), (0x65#8, 101, 8), (0xEF#8, 111, 6)],
      let s := st 4 [] (p.1 :: List.replicate (p.2.2 - 2) 0)
      s.runState = .running ∧ s.cfg.program[s.pc]? = some p.1 ∧ p.1.toNat % 128 = p.2.1 ∧
        s.cfg.program.length < s.pc + p.2.2 := by decide

theorem witness_FaultsArePrecise :
    ∃ s t : State, step s = .next t ∧ t.runState = .faulted := ⟨_, _, step_sBad, rfl⟩

theorem witness_PcChangesInOneWayOnly :
    (∃ s t : State, step s = .next t ∧ t.runState = .running) ∧
    ∃ s t : State, step s = .next t ∧ t.runState ≠ .running :=
  ⟨⟨_, _, step_sLoad, rfl⟩, ⟨_, _, step_tLoad, by decide⟩⟩

theorem witness_DataDoesNotSteerThePc :
    ∃ s s' t t' : State, s.cfg.program = s'.cfg.program ∧ s.pc = s'.pc ∧ s.mem ≠ s'.mem ∧
      step s = .next t ∧ step s' = .next t' ∧ t.runState = .running ∧ t'.runState = .running :=
  ⟨sLoad, { sLoad with mem := [(3, 7)] }, tLoad, tLoad, rfl, rfl, by decide, rfl, rfl, rfl, rfl⟩

/-- A changed cell for each of the three kinds: LoadConst, WriteMem (W1), Gte (G4). -/
theorem witness_OnlyThreeKindsOfValueAreWritten :
    (∃ s t : State, step s = .next t ∧ Memory.cell t.mem 3 ≠ Memory.cell s.mem 3) ∧
    (∃ s t : State, step s = .next t ∧ Memory.cell t.mem 4 ≠ Memory.cell s.mem 4) ∧
    ∃ s t : State, step s = .next t ∧ Memory.cell t.mem 0 ≠ Memory.cell s.mem 0 :=
  ⟨⟨_, _, step_sLoad, by decide⟩,
   ⟨st 16 [(3, 42)] (encode (.writeMem 3 4)), _, rfl, by decide⟩,
   ⟨st 16 [] (encode (.gte 0 0 0 0 0)), _, rfl, by decide⟩⟩

/-- The last cell and the first address past it. -/
theorem witness_LoadConstWritesItsConstant :
    15 < (st 16 [] []).cfg.memSize ∧ (st 16 [] []).cfg.memSize ≤ 16 := by decide

/-- Each branch of ReadMem's checks at the values where it begins, MEM_SIZE 16, `M[0] = 15`: base address 16;
effective address 16; destination 16; and addresses 0 and 15 with destination 15. -/
theorem witness_ReadMemLoadsThroughItsBase :
    (let s := st 16 [(0, 15)] [];
      (s.cfg.memSize ≤ 16) ∧
      (¬s.cfg.memSize ≤ 0 ∧
        ¬(0 ≤ Memory.cell s.mem 0 + (1 : Nat) ∧ Memory.cell s.mem 0 + (1 : Nat) < s.cfg.memSize)) ∧
      (¬s.cfg.memSize ≤ 0 ∧
        ¬¬(0 ≤ Memory.cell s.mem 0 + (0 : Nat) ∧ Memory.cell s.mem 0 + (0 : Nat) < s.cfg.memSize) ∧
        s.cfg.memSize ≤ 16) ∧
      (¬s.cfg.memSize ≤ 0 ∧
        ¬¬(0 ≤ Memory.cell s.mem 0 + (0 : Nat) ∧ Memory.cell s.mem 0 + (0 : Nat) < s.cfg.memSize) ∧
        ¬s.cfg.memSize ≤ 15)) := by decide

theorem witness_WriteMemCopiesCell :
    (st 16 [] []).cfg.memSize ≤ 16 ∧ ¬(st 16 [] []).cfg.memSize ≤ 15 := by decide

/-- Gte's six branches by the checks that decide them, MEM_SIZE 16, `M[1] = 15`: vectors G9, G10, then an
effective address 16, G12, a result address 16, and all in range with both effective addresses 15. -/
theorem witness_GteWritesTheComparison :
    (let s := st 16 [(1, 15)] [];
      let ea (base offset : Nat) : Int := Memory.cell s.mem base + offset;
      let inside (x : Int) : Prop := 0 ≤ x ∧ x < s.cfg.memSize;
      (s.cfg.memSize ≤ 16) ∧
      (¬s.cfg.memSize ≤ 1 ∧ s.cfg.memSize ≤ 16) ∧
      (¬s.cfg.memSize ≤ 1 ∧ ¬inside (ea 1 1)) ∧
      (¬s.cfg.memSize ≤ 1 ∧ inside (ea 1 0) ∧ s.cfg.memSize ≤ 16) ∧
      (¬s.cfg.memSize ≤ 1 ∧ inside (ea 1 0) ∧ ¬s.cfg.memSize ≤ 15 ∧ ¬inside (ea 1 1)) ∧
      (¬s.cfg.memSize ≤ 1 ∧ inside (ea 1 0) ∧ ¬s.cfg.memSize ≤ 15)) := by decide

theorem witness_EachInstructionCompletesInRange :
    (let s := st 16 [(10, 5), (11, 2)] [];
      15 < s.cfg.memSize ∧ 10 < s.cfg.memSize ∧ 11 < s.cfg.memSize ∧
      Memory.cell s.mem 10 + (10 : Nat) = (15 : Nat) ∧
      Memory.cell s.mem 11 + (1 : Nat) = (3 : Nat) ∧ 3 < s.cfg.memSize) := by decide

theorem witness_FirstFailingAccessDecides :
    ((sBad.accesses (.loadConst 1 16)).find? (fun c => !sBad.inRange c.address)).isSome = true ∧
    (sLoad.accesses (.loadConst 42 3)).find? (fun c => !sLoad.inRange c.address) = none := by decide

theorem witness_NextInstructionSeesTheWrite :
    3 < sLoad.cfg.memSize ∧ 4 < sLoad.cfg.memSize ∧
      CompletesWriting (.loadConst 42 3) sLoad 6 3 42 ∧ exec (.loadConst 42 3) sLoad = .next tLoad := by
  refine ⟨by decide, by decide, ⟨tLoad, rfl, fun b => ?_, rfl, rfl, rfl, rfl⟩, rfl⟩
  simp [tLoad, sLoad, st, Memory.cell, eq_comm]

/-- A written cell and one that no transition writes. -/
theorem witness_CellsHoldTheMostRecentWrite :
    (stepN 1 sLoad).isSome = true ∧ writeLog 1 sLoad = [⟨3, 42⟩] ∧
    sLoad = State.resetWith 16 [0x6F, 0x15, 0x0C, 0x00, 0x00, 0x00] ∧
    (∀ w ∈ writeLog 1 sLoad, w.addr ≠ 4) := by decide

theorem witness_CanonicalMemoriesAreExtensional :
    Memory.wf (Memory.store (Memory.store [] 1 5) 2 6) = true ∧
    Memory.wf (Memory.store (Memory.store [] 2 6) 1 5) = true ∧
    Memory.store (Memory.store [] 1 5) 2 6 = Memory.store (Memory.store [] 2 6) 1 5 := by decide

theorem witness_DecodeOfEncodeIsIdentity :
    (Instr.gte 255 67108863 67108863 67108863 255).wellFormed = true ∧
    (Instr.loadConst 2047 67108863).wellFormed = true := by decide

theorem witness_DecodedInstructionIsWellFormed :
    decode [0xA8, 0xFF, 0xFF, 0xFF, 0xFF, 0xFF, 0xFF, 0xFF, 0x07] 0 =
      .instr (.readMem 255 67108863 67108863) 9 := by decide

/-- P7 of 95 section 3, behind one other byte, so at PC 1. -/
theorem witness_PaddingBitsAreIgnored :
    (Instr.loadConst 1 0).wellFormed = true ∧
    15 < 2 ^ (8 * (Instr.loadConst 1 0).length - (Instr.loadConst 1 0).opcode.usedBits) ∧
    (let s := { st 8 [] [0x00, 0xEF, 0x00, 0x00, 0x00, 0x00, 0xF0, 0x11] with pc := 1 };
      s.runState = .running ∧ s.pc = ([0x00] : List Byte).length ∧ s.cfg.program =
        [0x00] ++ leBytes (Instr.loadConst 1 0).length
          (encodeWord (.loadConst 1 0) + 15 * 2 ^ (Instr.loadConst 1 0).opcode.usedBits) ++ [0x11]) := by decide

/-- A record with an address out of range but not the one the instruction at PC forms is not true. -/
theorem test_recordTrue_ties_record_to_instruction :
    tBad.recordTrue { pc := 0, info := .outOfRangeAddress 16 .write } = true ∧
    tBad.recordTrue { pc := 0, info := .outOfRangeAddress 16 .read } = false ∧
    tBad.recordTrue { pc := 0, info := .outOfRangeAddress (-5) .write } = false ∧
    (st 16 [] [0x00]).recordTrue { pc := 0, info := .outOfRangeAddress (-5) .write } = false := by
  decide

theorem witness_WordIsLittleEndian :
    1 + 13 ≤ (List.replicate 14 (0xA5 : Byte)).length ∧ 103 < 8 * 13 := by decide

theorem witness_ByteSlices :
    (0xEF#8).toNat % 128 = 111 ∧ (0xC4#8).toNat % 128 = 68 ∧ (0xE5#8).toNat % 128 = 101 ∧
    (0xA8#8).toNat % 128 = 40 := by decide

theorem witness_DecodeReadsOnlyTheInstructionsBytes :
    (decode [0x6F, 0x15, 0x0C, 0x00, 0x00, 0x00, 0x11] 0 = .instr (.loadConst 42 3) 6 ∧
      ([0x6F, 0x15, 0x0C, 0x00, 0x00, 0x00, 0x22, 0x33].drop 0).take 6 =
        ([0x6F, 0x15, 0x0C, 0x00, 0x00, 0x00, 0x11].drop 0 : List Byte).take 6) ∧
    (decode [0x00, 0x11] 0 = .unknownOpcode 0 ∧
      ([0x00] : List Byte)[0]? = ([0x00, 0x11] : List Byte)[0]?) := by decide

theorem witness_AssembledBinaryDecodesAtBoundaries :
    (Instr.writeMem 3 4).wellFormed = true ∧
    decode (encodeProgram [.loadConst 42 3, .writeMem 3 4]) 6 = .instr (.writeMem 3 4) 8 := by decide

theorem witness_PlacedWordRunsNext : (Instr.gte 21 30 20 31 5).wellFormed = true := by decide

theorem witness_EveryRunEnds :
    ∃ s : State, s.runState = .running ∧ s.pc ≤ s.cfg.program.length ∧ s.cfg.program ≠ [] :=
  ⟨sLoad, rfl, by decide, by decide⟩

theorem witness_RangeReadListsCellsInOrder :
    (3, (1 : Int)) ∈ (st 4 [(0, 5), (2, 7), (3, 1)] []).readRange 3 3 ∧ 1 < 3 := by decide

end Sys2Proof.Tests
end

/-! SUPPORT and the proofs about R12 and R16: how the stream's bytes make up the instruction's integer, and
what the decoder guarantees of the fields it takes from it. -/

namespace Sys2Proof

variable (B : List Byte) (pc n : Nat)

/-- The byte at PC is the least significant of the word. Past the stream's end both sides read zero. -/
theorem fetchWord_succ :
    fetchWord B pc (n + 1) = (B.getD pc 0).toNat + 256 * fetchWord B (pc + 1) n := by
  unfold fetchWord
  by_cases h : pc < B.length
  · rw [List.drop_eq_getElem_cons h, List.take_succ_cons, leValue, List.getD_eq_getElem _ _ h]
  · have hpc : B.length ≤ pc := Nat.le_of_not_lt h
    have hdrop : B.drop (pc + 1) = [] := List.drop_of_length_le (Nat.le_succ_of_le hpc)
    simp [List.drop_of_length_le hpc, hdrop, leValue, hpc]

theorem fetchWord_eq_sum :
    fetchWord B pc n =
      ((List.range n).map (fun i => (B.getD (pc + i) 0).toNat * 2 ^ (8 * i))).sum := by
  induction n generalizing pc with
  | zero => rfl
  | succ n ih =>
    have hterm (i : Nat) : (B.getD (pc + (i + 1)) 0).toNat * 2 ^ (8 * (i + 1)) =
        256 * ((B.getD (pc + 1 + i) 0).toNat * 2 ^ (8 * i)) := by
      rw [show pc + (i + 1) = pc + 1 + i by omega]
      ring
    simp only [fetchWord_succ, ih, List.range_succ_eq_map, List.map_cons, List.sum_cons, List.map_map,
      Function.comp_def, Nat.succ_eq_add_one, hterm, List.sum_map_mul_left]
    simp

theorem fetchWord_testBit {k : Nat} (hk : k < 8 * n) :
    (fetchWord B pc n).testBit k = (B.getD (pc + k / 8) 0).getLsbD (k % 8) := by
  induction n generalizing pc k with
  | zero => omega
  | succ n ih =>
    have hbyte : (B.getD pc 0).toNat < 2 ^ 8 := (B.getD pc 0).isLt
    rw [fetchWord_succ, Nat.add_comm, Nat.testBit_two_pow_mul_add (i := 8) _ hbyte]
    split
    case isTrue hlow =>
      rw [Nat.div_eq_of_lt hlow, Nat.mod_eq_of_lt hlow]
      rfl
    case isFalse hhigh =>
      rw [ih (pc + 1) (by omega), show pc + 1 + (k - 8) / 8 = pc + k / 8 by omega,
        show (k - 8) % 8 = k % 8 by omega]

/-- Settles O26: the decoder takes the operands by the slices of R64 to R67, each below its width. -/
theorem decodedInstructionIsWellFormed : Obligations.DecodedInstructionIsWellFormed := by
  intro B pc n i h
  obtain ⟨o, -, rfl, hend, rfl⟩ := decode_eq_instr h
  have hlen : o.length = (decodeFields o (fetchWord B pc o.length)).length := by
    rw [Instr.length, decodeFields_opcode]
  exact ⟨decodeFields_wellFormed o _, hlen, hend⟩

/-- Settles O28, by induction on the number of bytes from the least significant one on; neither part needs
the bytes to lie within the stream. -/
theorem wordIsLittleEndian : Obligations.WordIsLittleEndian :=
  fun B pc n _ => ⟨fetchWord_eq_sum B pc n, fun _ => fetchWord_testBit B pc n⟩

end Sys2Proof

/-! SUPPORT and the proofs about the state (10_state.md): what a step can leave behind, the machine's
invariant over steps and runs, and that the canonical form of memory is a normal form. -/

namespace Sys2Proof

variable {B : List Byte} {pc : Nat}

/-- Nothing is fetched exactly at and past the end of the stream (R94). -/
theorem decode_eq_endOfStream_iff : decode B pc = .endOfStream ↔ B.length ≤ pc := by
  unfold decode
  split
  case isTrue hend => simp [hend]
  case isFalse hin =>
    split
    · simp [hin]
    · split <;> simp [hin]

/-- When the decoder answers an unknown opcode (R77). -/
theorem decode_eq_unknownOpcode_iff {op : BitVec 7} :
    decode B pc = .unknownOpcode op ↔
      pc < B.length ∧ op = opcodeAt B pc ∧ Opcode.ofBits op = none := by
  unfold decode
  split
  case isTrue hend => simp [Nat.not_lt.2 hend]
  case isFalse hin =>
    split
    case h_1 hnone => grind
    case h_2 o hsome => split <;> grind

/-- When the decoder answers a cut-off instruction (R80). -/
theorem decode_eq_truncated_iff {op : BitVec 7} {needed available : Nat} :
    decode B pc = .truncated op needed available ↔
      pc < B.length ∧ op = opcodeAt B pc ∧ (Opcode.ofBits op).map Opcode.length = some needed ∧
        pc + available = B.length ∧ available < needed := by
  unfold decode
  split
  case isTrue hend => simp [Nat.not_lt.2 hend]
  case isFalse hin =>
    split
    case h_1 hnone => grind
    case h_2 o hsome => split <;> grind

/-- The lengths of R62. -/
theorem opcode_length_eq (o : Opcode) :
    o.length = 6 ∨ o.length = 13 ∨ o.length = 8 ∨ o.length = 9 := by
  cases o <;> decide

/-- A constant that stands in the stream is at most 2047 (R9, R25). -/
theorem constant_le_of_decode {n c a : Nat}
    (h : decode B pc = .instr (.loadConst c a) n) : c ≤ 2047 := by
  obtain ⟨hwf, -⟩ := decodedInstructionIsWellFormed _ _ _ _ h
  obtain ⟨hc, -⟩ := (wellFormed_loadConst _ _).1 hwf
  omega

end Sys2Proof

namespace Sys2Proof.Machine

variable {s t : State}

/-! ### The fault record and the run state -/

/-- Fault entry keeps what a record is judged by: PC, the stream and the cells (R120). -/
@[simp] theorem recordTrue_enterFault (info : FaultInfo) (r : FaultRecord) :
    (s.enterFault info).recordTrue r = s.recordTrue r := rfl

theorem recordTrue_pc {r : FaultRecord} (h : s.recordTrue r = true) : r.pc = s.pc := by
  simp only [State.recordTrue, Bool.and_eq_true, decide_eq_true_eq] at h
  obtain ⟨⟨hpc, -⟩, -⟩ := h
  exact hpc

/-- A record of an unknown opcode is true exactly where the decoder answers that opcode. -/
theorem recordTrue_unknownOpcode_iff {op : BitVec 7} :
    s.recordTrue ⟨s.pc, .unknownOpcode op⟩ = true ↔
      decode s.cfg.program s.pc = .unknownOpcode op := by
  simp [State.recordTrue, decode_eq_unknownOpcode_iff]

/-- A record of a cut-off instruction is true exactly where the decoder answers it. -/
theorem recordTrue_truncatedInstruction_iff {op : BitVec 7} {needed available : Nat} :
    s.recordTrue ⟨s.pc, .truncatedInstruction op needed available⟩ = true ↔
      decode s.cfg.program s.pc = .truncated op needed available := by
  simp [State.recordTrue, decode_eq_truncated_iff, and_assoc]

/-- The record of the first access out of range of the instruction at PC is true. -/
theorem recordTrue_of_firstFailing {i : Instr} {n : Nat} {e : AccessError}
    (hd : decode s.cfg.program s.pc = .instr i n) (he : s.firstFailing i = some e) :
    s.recordTrue ⟨s.pc, .outOfRangeAddress e.address e.kind⟩ = true := by
  have hin : s.pc < s.cfg.program.length := by
    by_contra hend
    rw [decode_eq_endOfStream_iff.2 (Nat.le_of_not_lt hend)] at hd
    cases hd
  simp [State.recordTrue, hd, he, hin]

/-- A consistent status, one run state at a time (R31, R98). -/
theorem statusLegal_iff :
    s.statusLegal = true ↔
      (s.runState ≠ .faulted → s.fault = none) ∧
      (s.runState = .halted → s.pc = s.cfg.program.length) ∧
      (s.runState = .faulted → ∃ r, s.fault = some r ∧ s.recordTrue r = true) := by
  unfold State.statusLegal
  cases s.runState <;> cases s.fault <;> simp

theorem faultInfo_code_eq (info : FaultInfo) : info.code = 1 ∨ info.code = 2 ∨ info.code = 3 := by
  cases info <;> simp [FaultInfo.code]

/-! ### What a step leaves behind -/

/-- The three ends of a step (R90): the halt at the end of the stream, a fault whose record is true, or the
write and the advance of PC of a decoded instruction. -/
theorem step_next_ends (h : step s = .next t) :
    s.runState = .running ∧
    ((s.cfg.program.length ≤ s.pc ∧ t = s.halt) ∨
     (∃ info, s.recordTrue ⟨s.pc, info⟩ = true ∧ t = s.enterFault info) ∨
     (∃ i n w, decode s.cfg.program s.pc = .instr i n ∧ ruleOf s i = .ok w ∧
        t = s.commit n (.ok w))) := by
  obtain ⟨hrun, ⟨hd, rfl⟩ | ⟨op, hd, rfl⟩ | ⟨op, needed, available, hd, rfl⟩ | ⟨i, n, hd, rfl⟩⟩ :=
    step_next_cases h
  · exact ⟨hrun, .inl ⟨decode_eq_endOfStream_iff.1 hd, rfl⟩⟩
  · exact ⟨hrun, .inr (.inl ⟨_, recordTrue_unknownOpcode_iff.2 hd, rfl⟩)⟩
  · exact ⟨hrun, .inr (.inl ⟨_, recordTrue_truncatedInstruction_iff.2 hd, rfl⟩)⟩
  · obtain ⟨-, hlen, -⟩ := decodedInstructionIsWellFormed _ _ _ _ hd
    cases hr : ruleOf s i with
    | ok w => exact ⟨hrun, .inr (.inr ⟨i, n, w, hd, hr, by rw [hlen]⟩)⟩
    | error e =>
      exact ⟨hrun, .inr (.inl ⟨_, recordTrue_of_firstFailing hd (firstFailing_of_error hr), rfl⟩)⟩

/-- Settles O3: each of the three ends of a step leaves the configuration as it was. -/
theorem configurationIsFixed : Obligations.ConfigurationIsFixed := by
  intro s t h
  obtain ⟨-, ⟨-, rfl⟩ | ⟨info, -, rfl⟩ | ⟨i, n, w, -, -, rfl⟩⟩ := step_next_ends h <;> rfl

/-- Settles O14: only the completion of an instruction leaves the machine running, and only it moves PC. -/
theorem pcChangesInOneWayOnly : Obligations.PcChangesInOneWayOnly := by
  intro s t h
  obtain ⟨hrun, ⟨-, rfl⟩ | ⟨info, -, rfl⟩ | ⟨i, n, w, hd, -, rfl⟩⟩ := step_next_ends h
  · simp
  · simp
  · obtain ⟨o, -, rfl, -⟩ := decode_eq_instr hd
    exact ⟨fun _ => ⟨i, _, hd, opcode_length_eq o, rfl⟩, fun hstop => absurd hrun hstop⟩

/-! ### The values a step writes -/

/-- Settles O16: a changed cell is the written one, whose value is one of the three kinds; a copy comes from
another cell, since a cell's own value would not change it. -/
theorem onlyThreeKindsOfValueAreWritten : Obligations.OnlyThreeKindsOfValueAreWritten := by
  intro s t b h hne
  obtain ⟨-, ⟨-, rfl⟩ | ⟨info, -, rfl⟩ | ⟨i, n, w, hd, hw, rfl⟩⟩ := step_next_ends h
  · exact absurd rfl hne
  · exact absurd rfl hne
  · simp only [commit_ok_mem, cell_store] at hne ⊢
    split at hne
    case isFalse => exact absurd rfl hne
    case isTrue hb =>
      rw [if_pos hb]
      obtain ⟨c, a, rfl, hv⟩ | ⟨x, hx, hi, hv⟩ | ⟨⟨o1, p1, p2, pr, o2, rfl⟩, hv⟩ := ruleOf_ok_value hw
      · exact .inl ⟨c, a, n, hd, constant_le_of_decode hd, hv⟩
      · have hxb : x ≠ b := by
          rintro rfl
          exact hne hv
        refine .inr (.inl ⟨x, ?_, hx, hxb, hv⟩)
        obtain ⟨o, p, q, rfl⟩ | ⟨p, q, rfl⟩ := hi
        · exact .inl ⟨o, p, q, n, hd⟩
        · exact .inr ⟨p, q, n, hd⟩
      · exact .inr (.inr ⟨⟨o1, p1, p2, pr, o2, n, hd⟩, hv⟩)

/-- Where the cells are legal, so is the value a decoded instruction writes (R26, R27). -/
theorem ruleOf_ok_value_legal {i : Instr} {n : Nat} {w : CellWrite} (hs : s.cellsLegal = true)
    (hd : decode s.cfg.program s.pc = .instr i n) (hw : ruleOf s i = .ok w) :
    0 ≤ w.value ∧ w.value ≤ 2047 := by
  obtain ⟨c, a, rfl, hv⟩ | ⟨x, -, -, hv⟩ | ⟨-, hv⟩ := ruleOf_ok_value hw
  · have := constant_le_of_decode hd
    omega
  · rw [hv]
    exact cell_le_2047 hs x
  · omega

/-! ### The invariant over steps and runs -/

theorem cellsLegal_commit_ok {n : Nat} {w : CellWrite} (hs : s.cellsLegal = true)
    (haddr : w.addr < s.cfg.memSize) (hval : 0 ≤ w.value ∧ w.value ≤ 2047) :
    (s.commit n (.ok w)).cellsLegal = true := by
  rw [cellsLegal_iff] at hs ⊢
  intro c hc
  rcases (mem_store _ _ _ c).1 hc with ⟨-, rfl⟩ | ⟨hold, -⟩
  · exact ⟨haddr, hval⟩
  · exact hs c hold

/-- Settles O4, by the three ends of a step: the halt has reached `PC = L`, a fault's record is true, and a
completed instruction writes a legal value and ends within the stream. -/
theorem everyStepKeepsTheInvariant : Obligations.EveryStepKeepsTheInvariant := by
  rintro s t ⟨hmem, hcells, hpc, hstatus⟩ h
  obtain ⟨hrun, hend⟩ := step_next_ends h
  have hnone : s.fault = none := (statusLegal_iff.1 hstatus).1 (by simp [hrun])
  obtain ⟨hL, rfl⟩ | ⟨info, htrue, rfl⟩ | ⟨i, n, w, hd, hw, rfl⟩ := hend
  · exact ⟨hmem, hcells, hpc, statusLegal_iff.2 (by simp [hnone, Nat.le_antisymm hpc hL])⟩
  · exact ⟨hmem, hcells, hpc, statusLegal_iff.2 (by simp [htrue])⟩
  · obtain ⟨-, -, hbytes⟩ := decodedInstructionIsWellFormed _ _ _ _ hd
    exact ⟨wf_store _ _ _ hmem,
      cellsLegal_commit_ok hcells (ruleOf_ok_inRange hw) (ruleOf_ok_value_legal hcells hd hw),
      hbytes, statusLegal_iff.2 (by simp [hrun, hnone])⟩

theorem inv_resetWith (memSize : Nat) (program : List Byte) :
    (State.resetWith memSize program).Inv :=
  ⟨rfl, rfl, Nat.zero_le _, rfl⟩

/-- The invariant holds of every state of every run from reset. -/
theorem inv_of_reachable (h : Reachable s) : s.Inv := by
  induction h with
  | reset memSize program => exact inv_resetWith memSize program
  | step _ hs ih => exact everyStepKeepsTheInvariant _ _ ih hs

/-- Settles O5: a cell of a reachable state is legal, and the offset adds at most 255. -/
theorem reachableCellsAndAddressesBounded : Obligations.ReachableCellsAndAddressesBounded := by
  intro s h
  obtain ⟨-, hcells, -⟩ := inv_of_reachable h
  refine ⟨cell_le_2047 hcells, fun base offset hoff => ?_⟩
  have hbase := cell_le_2047 hcells base
  rw [rawEffectiveAddr_eq]
  omega

/-- Settles O7: the status of a reachable state is consistent. -/
theorem faultRecordFitsTheFault : Obligations.FaultRecordFitsTheFault := by
  intro s h
  obtain ⟨-, -, -, hstatus⟩ := inv_of_reachable h
  obtain ⟨hnone, -, hrecord⟩ := statusLegal_iff.1 hstatus
  refine ⟨hnone, fun hf => ?_⟩
  obtain ⟨r, hr, htrue⟩ := hrecord hf
  exact ⟨r, hr, recordTrue_pc htrue, faultInfo_code_eq r.info, htrue⟩

/-! ### The canonical form of memory -/

/-- The entries of a canonical memory are its cells that are not 0 (R23). -/
theorem mem_iff_cell_of_wf {m : Memory} (h : Memory.wf m = true) (a : Nat) (v : Int) :
    (a, v) ∈ m ↔ v ≠ 0 ∧ Memory.cell m a = v := by
  induction m with
  | nil => simp [eq_comm]
  | cons c m ih =>
    obtain ⟨x, w⟩ := c
    obtain ⟨hw, hlt, hm⟩ := (wf_cons m x w).1 h
    by_cases hx : x = a
    · subst hx
      have hnot : (x, v) ∉ m := fun hv => Nat.lt_irrefl x (hlt _ hv)
      simp only [List.mem_cons, hnot, or_false, Memory.cell, if_true, Prod.mk.injEq, true_and]
      constructor
      · rintro rfl
        exact ⟨hw, rfl⟩
      · exact fun hv => hv.2.symm
    · simp [Memory.cell, hx, Ne.symm hx, ih hm]

/-- A canonical memory lists its addresses in strictly rising order. -/
theorem pairwise_of_wf {m : Memory} (h : Memory.wf m = true) :
    m.Pairwise (Prod.fst ⁻¹'o (· < ·)) := by
  induction m with
  | nil => exact .nil
  | cons c m ih =>
    obtain ⟨-, hlt, hm⟩ := (wf_cons m c.1 c.2).1 h
    exact .cons hlt (ih hm)

/-- Settles O24: the cells give the entries, and strictly sorted lists with the same entries are equal. -/
theorem canonicalMemoriesAreExtensional : Obligations.CanonicalMemoriesAreExtensional := by
  intro m m' hm hm' hcell
  refine (pairwise_of_wf hm).eq_of_mem_iff (pairwise_of_wf hm') ?_
  rintro ⟨a, v⟩
  rw [mem_iff_cell_of_wf hm, mem_iff_cell_of_wf hm', hcell]

end Sys2Proof.Machine

/-! SUPPORT and the proofs about data memory (20_memory.md): what the next instruction and a run of
transitions read of the cells, and what the range-read port lists. -/

namespace Sys2Proof.Machine

variable {s t : State}

/-! ### The next instruction sees the write (R53) -/

/-- WriteMem between two cells that the machine has (R109). -/
theorem writeMem_completes {p q : Nat} (hp : p < s.cfg.memSize) (hq : q < s.cfg.memSize) :
    CompletesWriting (.writeMem p q) s 8 q (Memory.cell s.mem p) := by
  have hrule : ruleOf s (.writeMem p q) = .ok ⟨q, Memory.cell s.mem p⟩ := by
    simp only [ruleOf, writeMemRule, memRead_ok s _ ((inRange_directAddr s p).trans (decide_eq_true hp)),
      bind, Except.bind, memWrite_ok s _ _ ((inRange_directAddr s q).trans (decide_eq_true hq))]
    rfl
  have hexec := exec_eq_commit s (.writeMem p q)
  rw [hrule] at hexec
  exact ⟨_, hexec, by simp, rfl, rfl, rfl, rfl⟩

/-- Equal configurations check an address alike, so a cell that holds the same reads the same. -/
theorem memRead_congr {b : Int} (hcfg : t.cfg = s.cfg)
    (hcell : s.inRange b = true → t.cellAt b = s.cellAt b) : t.memRead b = s.memRead b := by
  have hrange : t.inRange b = s.inRange b := by simp [State.inRange, hcfg]
  cases hb : s.inRange b with
  | true => rw [memRead_ok t b (hrange.trans hb), memRead_ok s b hb, hcell hb]
  | false => rw [memRead_error t b (hrange.trans hb), memRead_error s b hb]

/-- Settles O23: completion says what every cell holds afterwards, and MemRead reads just that. -/
theorem nextInstructionSeesTheWrite : Obligations.NextInstructionSeesTheWrite := by
  rintro i s t n a v ha ⟨t', ht', hcell, -, -, -, hcfg⟩ ht
  obtain rfl : t' = t := Host.Outcome.next.inj (ht'.symm.trans ht)
  have hat : a < t'.cfg.memSize := hcfg ▸ ha
  have hv : Memory.cell t'.mem a = v := by simp [hcell]
  refine ⟨?_, fun b hb => memRead_congr hcfg fun hrange => ?_, fun q hq => ?_⟩
  · rw [← hv]
    exact memRead_ok t' a ((inRange_directAddr t' a).trans (decide_eq_true hat))
  · have hne : b.toNat ≠ a := by
      obtain ⟨h0, -⟩ := (inRange_iff s b).1 hrange
      omega
    exact (hcell b.toNat).trans (if_neg hne)
  · rw [← hv]
    exact writeMem_completes hat (hcfg ▸ hq)

/-! ### The most recent write to a cell (R53) -/

/-- The write of the access table is the one that the decoded instruction's rule ends with (R24). -/
theorem stepWrite_of_instr {i : Instr} {n : Nat} (hrun : s.runState = .running)
    (hd : decode s.cfg.program s.pc = .instr i n) : s.stepWrite = (ruleOf s i).toOption := by
  obtain ⟨e, hf, hr⟩ | ⟨hf, c, hlast, -, hr⟩ := ruleOf_eq (s := s) i
  · simp [State.stepWrite, hrun, hd, hf, hr, Except.toOption]
  · simp [State.stepWrite, hrun, hd, hf, hr, hlast, Except.toOption]

/-- Where no instruction is decoded, the step writes nothing. -/
theorem stepWrite_eq_none (hd : ∀ i n, decode s.cfg.program s.pc ≠ .instr i n) :
    s.stepWrite = none := by
  unfold State.stepWrite
  split
  · exact absurd ‹_› (hd _ _)
  · rfl

/-- What a step does to memory: its one write, or nothing. -/
theorem step_mem_cases (h : step s = .next t) :
    (s.stepWrite = none ∧ t.mem = s.mem) ∨
    (∃ w, s.stepWrite = some w ∧ t.mem = Memory.store s.mem w.addr w.value) := by
  obtain ⟨hrun, ⟨hd, rfl⟩ | ⟨op, hd, rfl⟩ | ⟨op, needed, available, hd, rfl⟩ | ⟨i, n, hd, rfl⟩⟩ :=
    step_next_cases h
  · exact .inl ⟨stepWrite_eq_none (by simp [hd]), rfl⟩
  · exact .inl ⟨stepWrite_eq_none (by simp [hd]), rfl⟩
  · exact .inl ⟨stepWrite_eq_none (by simp [hd]), rfl⟩
  · have hwrite := stepWrite_of_instr hrun hd
    cases hr : ruleOf s i with
    | error e => exact .inl ⟨by rw [hwrite, hr]; rfl, rfl⟩
    | ok w => exact .inr ⟨w, by rw [hwrite, hr]; rfl, rfl⟩

/-- What a log of writes, newest first, leaves in cell `b`, which held `v` before them. -/
def cellAfter (log : List CellWrite) (b : Nat) (v : Int) : Int :=
  (log.find? (fun w => decide (w.addr = b))).elim v CellWrite.value

/-- The newer part of a log acts on what the older part left. -/
theorem cellAfter_append (newer older : List CellWrite) (b : Nat) (v : Int) :
    cellAfter (newer ++ older) b v = cellAfter newer b (cellAfter older b v) := by
  unfold cellAfter
  rw [List.find?_append]
  cases newer.find? (fun w => decide (w.addr = b)) <;> rfl

/-- A log without a write to the cell leaves it as it was. -/
theorem cellAfter_of_unwritten {log : List CellWrite} {b : Nat} (h : ∀ w ∈ log, w.addr ≠ b)
    (v : Int) : cellAfter log b v = v := by
  have hnone : log.find? (fun w => decide (w.addr = b)) = none := by simpa using h
  rw [cellAfter, hnone]
  rfl

/-- A cell after one step. -/
theorem cell_of_step (h : step s = .next t) (b : Nat) :
    Memory.cell t.mem b = cellAfter s.stepWrite.toList b (Memory.cell s.mem b) := by
  obtain ⟨hnone, hmem⟩ | ⟨w, hsome, hmem⟩ := step_mem_cases h
  · rw [hnone, hmem]
    rfl
  · rw [hsome, hmem, cell_store]
    by_cases hb : w.addr = b
    · simp [cellAfter, hb]
    · simp [cellAfter, hb, Ne.symm hb]

/-- A run's first transition. -/
theorem stepN_succ_eq_some {k : Nat} (h : stepN (k + 1) s = some t) :
    ∃ u, step s = .next u ∧ stepN k u = some t := by
  unfold stepN at h
  split at h
  · exact ⟨_, ‹_›, h⟩
  · cases h
  · cases h

theorem writeLog_succ {k : Nat} (h : step s = .next t) :
    writeLog (k + 1) s = writeLog k t ++ s.stepWrite.toList := by
  simp [writeLog, h]

/-- A cell after any number of transitions: the first one's write is the oldest of the log. -/
theorem cell_of_stepN (k : Nat) (b : Nat) (h : stepN k s = some t) :
    Memory.cell t.mem b = cellAfter (writeLog k s) b (Memory.cell s.mem b) := by
  induction k generalizing s with
  | zero =>
    obtain rfl : s = t := Option.some.inj h
    rfl
  | succ k ih =>
    obtain ⟨u, hstep, hrest⟩ := stepN_succ_eq_some h
    rw [writeLog_succ hstep, cellAfter_append, ← cell_of_step hstep, ih hrest]

/-- Settles O39, by induction on the number of transitions; from reset every cell held 0. -/
theorem cellsHoldTheMostRecentWrite : Obligations.CellsHoldTheMostRecentWrite := by
  refine ⟨fun k s t b h => ?_, fun k m B t b h hlog => ?_⟩
  · rw [cell_of_stepN k b h, cellAfter]
    cases (writeLog k s).find? (fun w => decide (w.addr = b)) <;> rfl
  · rw [cell_of_stepN k b h, cellAfter_of_unwritten hlog]
    rfl

/-! ### The range-read port (R58, R59) -/

theorem mem_readRange {first last a : Nat} {v : Int} :
    (a, v) ∈ s.readRange first last ↔
      first ≤ a ∧ a ≤ last ∧ a < s.cfg.memSize ∧ v = Memory.cell s.mem a := by
  simp only [State.readRange, List.mem_map, List.mem_filter, List.mem_range'_1, decide_eq_true_eq,
    Prod.mk.injEq]
  constructor
  · rintro ⟨x, ⟨⟨hfirst, hlast⟩, hsize⟩, rfl, rfl⟩
    exact ⟨hfirst, by omega, hsize, rfl⟩
  · rintro ⟨hfirst, hlast, hsize, rfl⟩
    exact ⟨a, ⟨⟨hfirst, by omega⟩, hsize⟩, rfl, rfl⟩

/-- The addresses of a range read: those from `first` to `last` that the machine has. -/
theorem readRange_addresses (first last : Nat) :
    (s.readRange first last).map Prod.fst =
      (List.range' first (last + 1 - first)).filter (fun a => decide (a < s.cfg.memSize)) := by
  simp [State.readRange, Function.comp_def]

/-- Settles O38: the port's addresses are a part of a rising list of successive numbers, and no address lies
in an empty range. -/
theorem rangeReadListsCellsInOrder : Obligations.RangeReadListsCellsInOrder := by
  refine fun s first last => ⟨fun _ _ => mem_readRange, ?_, fun hempty => ?_⟩
  · rw [readRange_addresses]
    exact (List.pairwise_lt_range' 1 Nat.one_pos).filter _
  · refine List.eq_nil_iff_forall_not_mem.2 fun ⟨a, v⟩ hmem => ?_
    obtain ⟨hfirst, hlast, -⟩ := mem_readRange.1 hmem
    omega

end Sys2Proof.Machine

/-! SUPPORT and the proofs about the encoding (30_encoding.md): what the decoder reads from bytes placed in a
stream, the fields as concatenations of byte slices (R68 to R71), and that decoding undoes encoding. -/

namespace Sys2Proof

/-! ### Bytes placed in a stream -/

@[simp] theorem fetchWord_placed (before bs after : List Byte) :
    fetchWord (before ++ bs ++ after) before.length bs.length = leValue bs := by
  simp [fetchWord]

/-- The opcode is the low seven bits of the word, however many bytes the word has (R72). -/
theorem opcodeAt_toNat (B : List Byte) (pc n : Nat) :
    (opcodeAt B pc).toNat = fetchWord B pc (n + 1) % 128 := by
  rw [fetchWord_succ, opcodeAt, BitVec.toNat_setWidth]
  omega

/-- The decoder on as many bytes as their opcode asks for, anywhere in a stream. -/
theorem decode_placed {o : Opcode} {bs : List Byte} (before after : List Byte)
    (hlen : bs.length = o.length) (hop : leValue bs % 128 = o.code.toNat) :
    decode (before ++ bs ++ after) before.length = .instr (decodeFields o (leValue bs)) o.length := by
  obtain ⟨n, hn⟩ : ∃ n, bs.length = n + 1 :=
    Nat.exists_eq_add_one.2 (by have := opcode_length_eq o; omega)
  have hcode : opcodeAt (before ++ bs ++ after) before.length = o.code :=
    BitVec.eq_of_toNat_eq (by rw [opcodeAt_toNat _ _ n, ← hn, fetchWord_placed, hop])
  rw [decode_of_opcode hcode (by simp [hlen]), ← hlen, fetchWord_placed]

/-! ### Slices of a little-endian integer (R13) -/

section ByteSlices

variable (b : Byte) (bs : List Byte)

theorem leValue_cons_mod_128 : leValue (b :: bs) % 128 = b.toNat % 128 := by
  rw [leValue]
  omega

@[simp] theorem slice_byte : slice b.toNat 7 0 = b.toNat := by
  have := b.isLt
  simp only [slice]
  omega

theorem leValue_cons_div {lo : Nat} (hlo : lo ≤ 8) :
    leValue (b :: bs) / 2 ^ lo = b.toNat / 2 ^ lo + 2 ^ (8 - lo) * leValue bs := by
  have hpow : 256 = 2 ^ lo * 2 ^ (8 - lo) := (pow_mul_pow_sub 2 hlo).symm
  rw [leValue, hpow, mul_assoc, Nat.add_mul_div_left _ _ (Nat.two_pow_pos lo)]

/-- A slice above the first byte is a slice of the other bytes. -/
@[simp] theorem slice_cons_of_le {hi lo : Nat} (hlo : 8 ≤ lo) :
    slice (leValue (b :: bs)) hi lo = slice (leValue bs) (hi - 8) (lo - 8) := by
  have hdiv : leValue (b :: bs) / 2 ^ 8 = leValue bs := by
    rw [leValue_cons_div b bs le_rfl, Nat.div_eq_of_lt b.isLt]
    simp
  rw [slice, ← pow_mul_pow_sub 2 hlo, ← Nat.div_div_eq_div_mul, hdiv, slice,
    Nat.sub_sub_sub_cancel_right hlo]

/-- A slice that ends in the first byte is a slice of that byte. -/
@[simp] theorem slice_cons_of_lt {hi lo : Nat} (hlo : lo ≤ hi) (hhi : hi < 8) :
    slice (leValue (b :: bs)) hi lo = slice b.toNat hi lo := by
  have hpow : 2 ^ (8 - lo) = 2 ^ (hi - lo + 1) * 2 ^ (7 - hi) := by
    rw [← pow_add]
    congr 1
    omega
  rw [slice, leValue_cons_div b bs (by omega), hpow, mul_assoc, Nat.add_mul_mod_self_left, slice]

/-- A slice that begins in the first byte and goes on past it is a concatenation. -/
@[simp] theorem slice_cons_of_lt_of_le {hi lo : Nat} (hlo : lo < 8) (hhi : 8 ≤ hi) :
    slice (leValue (b :: bs)) hi lo =
      slice (leValue bs) (hi - 8) 0 * 2 ^ (8 - lo) + slice b.toNat 7 lo := by
  have hwidth : 2 ^ (hi - lo + 1) = 2 ^ (8 - lo) * 2 ^ (hi - 8 - 0 + 1) := by
    rw [← pow_add]
    congr 1
    omega
  have hlow : b.toNat / 2 ^ lo < 2 ^ (8 - lo) :=
    Nat.div_lt_of_lt_mul ((pow_mul_pow_sub 2 hlo.le).symm ▸ b.isLt)
  have hhigh : (b.toNat / 2 ^ lo + 2 ^ (8 - lo) * leValue bs) / 2 ^ (8 - lo) = leValue bs := by
    rw [Nat.add_mul_div_left _ _ (Nat.two_pow_pos _), Nat.div_eq_of_lt hlow, Nat.zero_add]
  rw [slice, leValue_cons_div b bs hlo.le, hwidth, Nat.mod_mul, hhigh, Nat.add_mul_mod_self_left,
    slice, slice, show 7 - lo + 1 = 8 - lo by omega, pow_zero, Nat.div_one]
  ring

end ByteSlices

/-- Settles O29: the fields' bit positions (R64) cut at the byte boundaries. -/
theorem loadConstByteSlices : Obligations.LoadConstByteSlices := by
  intro b0 b1 b2 b3 b4 b5 before rest hop
  rw [decode_placed (o := .loadConst) before rest rfl ((leValue_cons_mod_128 _ _).trans hop)]
  simp [decodeFields, Opcode.length]

/-- Settles O30: the fields' bit positions (R65) cut at the byte boundaries. -/
theorem gteByteSlices : Obligations.GteByteSlices := by
  intro b0 b1 b2 b3 b4 b5 b6 b7 b8 b9 b10 b11 b12 before rest hop
  rw [decode_placed (o := .gte) before rest rfl ((leValue_cons_mod_128 _ _).trans hop)]
  simp [decodeFields, Opcode.length]

/-- Settles O31: the fields' bit positions (R66) cut at the byte boundaries. -/
theorem writeMemByteSlices : Obligations.WriteMemByteSlices := by
  intro b0 b1 b2 b3 b4 b5 b6 b7 before rest hop
  rw [decode_placed (o := .writeMem) before rest rfl ((leValue_cons_mod_128 _ _).trans hop)]
  simp [decodeFields, Opcode.length]

/-- Settles O32: the fields' bit positions (R67) cut at the byte boundaries. -/
theorem readMemByteSlices : Obligations.ReadMemByteSlices := by
  intro b0 b1 b2 b3 b4 b5 b6 b7 b8 before rest hop
  rw [decode_placed (o := .readMem) before rest rfl ((leValue_cons_mod_128 _ _).trans hop)]
  simp [decodeFields, Opcode.length]

/-! ### Decoding undoes encoding (R84), whatever the padding (R78) -/

/-- The encoded word uses the format's bits only and carries the opcode in the low seven. -/
theorem encodeWord_fits (i : Instr) : Laws.WordFits.Statement i := by
  cases i with
  | loadConst c a => exact Laws.WordFits.loadConst c a
  | gte o1 p1 p2 pr o2 => exact Laws.WordFits.gte o1 p1 p2 pr o2
  | writeMem p q => exact Laws.WordFits.writeMem p q
  | readMem o p q => exact Laws.WordFits.readMem o p q

/-- The decoder's bit positions (R64 to R67) recover every field from the encoder's running sums (R63), and
the padding above the used bits reaches none of them. -/
theorem decodeFields_encodeWord_add {i : Instr} (h : i.wellFormed = true) (pad : Nat) :
    decodeFields i.opcode (encodeWord i + pad * 2 ^ i.opcode.usedBits) = i := by
  cases i with
  | loadConst c a =>
    obtain ⟨hc, ha⟩ := (wellFormed_loadConst _ _).1 h
    rw [encodeWord_loadConst h]
    simp only [Instr.opcode, Opcode.usedBits, decodeFields, slice, Instr.loadConst.injEq]
    omega
  | gte o1 p1 p2 pr o2 =>
    obtain ⟨ho1, hp1, hp2, hpr, ho2⟩ := (wellFormed_gte _ _ _ _ _).1 h
    rw [encodeWord_gte h]
    simp only [Instr.opcode, Opcode.usedBits, decodeFields, slice, Instr.gte.injEq]
    omega
  | writeMem p q =>
    obtain ⟨hp, hq⟩ := (wellFormed_writeMem _ _).1 h
    rw [encodeWord_writeMem h]
    simp only [Instr.opcode, Opcode.usedBits, decodeFields, slice, Instr.writeMem.injEq]
    omega
  | readMem o p q =>
    obtain ⟨ho, hp, hq⟩ := (wellFormed_readMem _ _ _).1 h
    rw [encodeWord_readMem h]
    simp only [Instr.opcode, Opcode.usedBits, decodeFields, slice, Instr.readMem.injEq]
    omega

/-- The whole bytes of an instruction hold its used bits, the opcode's seven among them (R62). -/
theorem usedBits_bounds (i : Instr) : 7 ≤ i.opcode.usedBits ∧ i.opcode.usedBits ≤ 8 * i.length := by
  rw [Instr.length]
  cases i.opcode <;> decide

/-- A word whose padding fits above the used bits fits the instruction's bytes. -/
theorem encodeWord_add_lt {i : Instr} {pad : Nat} (h : i.wellFormed = true)
    (hpad : pad < 2 ^ (8 * i.length - i.opcode.usedBits)) :
    encodeWord i + pad * 2 ^ i.opcode.usedBits < 256 ^ i.length := by
  obtain ⟨hword, -⟩ := encodeWord_fits i h
  obtain ⟨-, hused⟩ := usedBits_bounds i
  calc encodeWord i + pad * 2 ^ i.opcode.usedBits
      < (pad + 1) * 2 ^ i.opcode.usedBits := by linarith
    _ ≤ 2 ^ (8 * i.length - i.opcode.usedBits) * 2 ^ i.opcode.usedBits := Nat.mul_le_mul_right _ hpad
    _ = 2 ^ (8 * i.length) := pow_sub_mul_pow 2 hused
    _ = 256 ^ i.length := pow_mul 2 8 i.length

/-- The padding leaves the opcode as it is (R72). -/
theorem encodeWord_add_mod_128 {i : Instr} (h : i.wellFormed = true) (pad : Nat) :
    (encodeWord i + pad * 2 ^ i.opcode.usedBits) % 128 = i.opcode.code.toNat := by
  obtain ⟨-, hop⟩ := encodeWord_fits i h
  obtain ⟨hused, -⟩ := usedBits_bounds i
  obtain ⟨c, hc⟩ : 128 ∣ pad * 2 ^ i.opcode.usedBits :=
    (pow_dvd_pow 2 hused).mul_left pad
  rw [hc, Nat.add_mul_mod_self_left, hop]

/-- The bytes of a well-formed instruction, with any padding, decode to it anywhere in a stream. -/
theorem decode_padded {i : Instr} {pad : Nat} (before after : List Byte) (h : i.wellFormed = true)
    (hpad : pad < 2 ^ (8 * i.length - i.opcode.usedBits)) :
    decode (before ++ leBytes i.length (encodeWord i + pad * 2 ^ i.opcode.usedBits) ++ after)
      before.length = .instr i i.length := by
  have hvalue : leValue (leBytes i.length (encodeWord i + pad * 2 ^ i.opcode.usedBits)) =
      encodeWord i + pad * 2 ^ i.opcode.usedBits := by
    rw [leValue_leBytes, Nat.mod_eq_of_lt (encodeWord_add_lt h hpad)]
  have hdecode := decode_placed (o := i.opcode) before after (leBytes_length i.length _)
    (hvalue ▸ encodeWord_add_mod_128 h pad)
  rwa [hvalue, decodeFields_encodeWord_add h] at hdecode

/-- The encoder's bytes are those with zero padding. -/
theorem decode_encode {i : Instr} (before after : List Byte) (h : i.wellFormed = true) :
    decode (before ++ encode i ++ after) before.length = .instr i i.length := by
  simpa [encode] using decode_padded before after h (Nat.two_pow_pos _)

/-- Settles O25: the word keeps every field, and its bytes keep the word. -/
theorem decodeOfEncodeIsIdentity : Obligations.DecodeOfEncodeIsIdentity :=
  fun i before after h => ⟨decode_encode before after h, encode_length i⟩

/-! ### An assembled binary (R82) -/

theorem encodeProgram_append (is js : List Instr) :
    encodeProgram (is ++ js) = encodeProgram is ++ encodeProgram js := by
  induction is with
  | nil => rfl
  | cons i is ih => simp [encodeProgram, ih]

/-- Settles O34: the instruction's bytes stand between those of the lists before and after it. -/
theorem assembledBinaryDecodesAtBoundaries : Obligations.AssembledBinaryDecodesAtBoundaries := by
  refine ⟨fun before after i h => ?_, fun is => decode_eq_endOfStream_iff.2 le_rfl⟩
  rw [encodeProgram_append, encodeProgram, ← List.append_assoc]
  exact decode_encode _ _ h

/-! ### One word of the opcode table -/

theorem leBytes_add (m n w : Nat) : leBytes (m + n) w = leBytes m w ++ leBytes n (w / 256 ^ m) := by
  induction m generalizing w with
  | zero => simp [leBytes]
  | succ m ih => simp [Nat.succ_add, leBytes, ih, Nat.div_div_eq_div_mul, pow_succ']

/-- The table word of an instruction is its encoding, lengthened with zero bytes. -/
theorem tableBytes_encodeWord {i : Instr} (h : i.wellFormed = true) :
    tableBytes (8 * i.length) (encodeWord i) = encode i ++ leBytes (maxLength - i.length) 0 := by
  have hword : encodeWord i < 256 ^ i.length := by
    simpa using encodeWord_add_lt h (Nat.two_pow_pos _)
  have hlen : i.length ≤ maxLength := by
    have := opcode_length_eq i.opcode
    rw [Instr.length, maxLength]
    omega
  have hbits : 2 ^ (8 * i.length) = 256 ^ i.length := pow_mul 2 8 i.length
  obtain ⟨k, hk⟩ := Nat.exists_eq_add_of_le hlen
  rw [tableBytes, Nat.mul_div_cancel_left _ (by decide), max_eq_left hlen, hbits,
    Nat.mod_eq_of_lt hword, hk, leBytes_add, Nat.div_eq_of_lt hword, Nat.add_sub_cancel_left, encode]

theorem decodeTableWord_encodeWord {i : Instr} (h : i.wellFormed = true) :
    decodeTableWord (8 * i.length) (encodeWord i) = some i := by
  have hdecode : decode (tableBytes (8 * i.length) (encodeWord i)) 0 = .instr i i.length := by
    rw [tableBytes_encodeWord h]
    exact decode_encode [] _ h
  rw [decodeTableWord, hdecode]

/-- Settles O35: the model's decoder run on the four words. -/
theorem writtenOutWordsDecode : Obligations.WrittenOutWordsDecode :=
  ⟨by decide, by decide, by decide, by decide⟩

end Sys2Proof

namespace Sys2Proof.Machine

variable {s : State}

/-- A running machine executes what the decoder finds at PC (R92). -/
theorem step_of_decode {i : Instr} {n : Nat} (hrun : s.runState = .running)
    (hd : decode s.cfg.program s.pc = .instr i n) : step s = exec i s := by
  simp [step, hrun, hd]

/-- Settles O27: the padded bytes decode to the instruction, and a step runs what is decoded. -/
theorem paddingBitsAreIgnored : Obligations.PaddingBitsAreIgnored := by
  intro i pad before after s h hpad
  obtain ⟨hword, -⟩ := encodeWord_fits i h
  have hdecode := decode_padded before after h hpad
  refine ⟨hword, hdecode, fun hrun hpc hprogram => step_of_decode (n := i.length) hrun ?_⟩
  rw [hprogram, hpc]
  exact hdecode

/-- Placed bytes stand at the offset asked for (log entry 4). -/
theorem placeBytes_eq (B : List Byte) (pc : Nat) (bytes : List Byte) :
    ∃ before after, placeBytes B pc bytes = before ++ bytes ++ after ∧ before.length = pc := by
  refine ⟨_, _, rfl, ?_⟩
  simp only [List.length_append, List.length_take, List.length_replicate]
  omega

/-- Settles O36: the placed word starts with the encoding, which stands at PC of a running machine. -/
theorem placedWordRunsNext : Obligations.PlacedWordRunsNext := by
  refine fun i s h => ⟨decodeTableWord_encodeWord h, step_of_decode (n := i.length) rfl ?_⟩
  obtain ⟨before, after, hplaced, hpc⟩ :=
    placeBytes_eq s.cfg.program s.pc (encode i ++ leBytes (maxLength - i.length) 0)
  rw [State.withFetchWord, loadAtPc_program, loadAtPc_pc, tableBytes_encodeWord h, hplaced, ← hpc,
    ← List.append_assoc, List.append_assoc]
  exact decode_encode _ _ h

end Sys2Proof.Machine

/-! SUPPORT and the proofs about the engine (40_engine.md): which bytes the decoder reads, when a step is
defined, how a completed instruction moves PC, and that every run ends. -/

namespace Sys2Proof

variable {B B' : List Byte} {pc n : Nat}

/-! ### The bytes the decoder reads (R93) -/

/-- A stream that agrees with one on `n` bytes it has at `pc`, at least one, has them all itself and gives the
same word and opcode. -/
theorem fetch_congr (hn : 0 < n) (hend : pc + n ≤ B.length)
    (hbytes : (B'.drop pc).take n = (B.drop pc).take n) :
    pc + n ≤ B'.length ∧ fetchWord B' pc n = fetchWord B pc n ∧ opcodeAt B' pc = opcodeAt B pc := by
  have hword : fetchWord B' pc n = fetchWord B pc n := by rw [fetchWord, fetchWord, hbytes]
  have hlen := congrArg List.length hbytes
  simp only [List.length_take, List.length_drop] at hlen
  obtain ⟨m, rfl⟩ := Nat.exists_eq_add_one.2 hn
  refine ⟨by omega, hword, BitVec.eq_of_toNat_eq ?_⟩
  rw [opcodeAt_toNat B' pc m, opcodeAt_toNat B pc m, hword]

theorem decode_congr {i : Instr} (hd : decode B pc = .instr i n)
    (hbytes : (B'.drop pc).take n = (B.drop pc).take n) : decode B' pc = .instr i n := by
  obtain ⟨o, hop, rfl, hend, rfl⟩ := decode_eq_instr hd
  have hpos : 0 < o.length := by have := opcode_length_eq o; omega
  obtain ⟨hend', hword, hop'⟩ := fetch_congr hpos hend hbytes
  rw [decode_of_opcode (hop'.trans hop) hend', hword]

/-- Settles O33: the opcode byte is the first of the instruction's bytes. -/
theorem decodeReadsOnlyTheInstructionsBytes : Obligations.DecodeReadsOnlyTheInstructionsBytes := by
  refine ⟨fun B B' pc n i => decode_congr, fun B B' pc op hd hbyte => ?_⟩
  obtain ⟨hin, rfl, hnone⟩ := decode_eq_unknownOpcode_iff.1 hd
  rw [List.getElem?_eq_getElem hin] at hbyte
  obtain ⟨hin', -⟩ := List.getElem?_eq_some_iff.1 hbyte
  have hop : opcodeAt B pc = opcodeAt B' pc :=
    (opcodeAt_of_getElem (List.getElem?_eq_getElem hin)).trans (opcodeAt_of_getElem hbyte).symm
  exact decode_eq_unknownOpcode_iff.2 ⟨hin', hop, hnone⟩

/-- The bytes of a well-formed instruction decode to it wherever they stand (R84). -/
theorem decode_of_encode_at {i : Instr} (h : i.wellFormed = true)
    (hbytes : (B.drop pc).take i.length = encode i) : decode B pc = .instr i i.length := by
  have hplaced : decode (List.replicate pc 0 ++ encode i) pc = .instr i i.length := by
    simpa using decode_encode (List.replicate pc 0) [] h
  refine decode_congr hplaced ?_
  rw [hbytes, List.drop_left' List.length_replicate, ← encode_length, List.take_length]

end Sys2Proof

namespace Sys2Proof.Machine

variable {s t : State}

/-! ### The step, one answer of the decoder at a time (R92) -/

theorem step_of_endOfStream (hrun : s.runState = .running) (hend : s.cfg.program.length ≤ s.pc) :
    step s = .next s.halt := by
  simp [step, hrun, decode_eq_endOfStream_iff.2 hend]

theorem step_of_unknownOpcode {op : BitVec 7} (hrun : s.runState = .running)
    (hd : decode s.cfg.program s.pc = .unknownOpcode op) :
    step s = .next (s.enterFault (.unknownOpcode op)) := by
  simp [step, hrun, hd]

theorem step_of_truncated {op : BitVec 7} {needed available : Nat} (hrun : s.runState = .running)
    (hd : decode s.cfg.program s.pc = .truncated op needed available) :
    step s = .next (s.enterFault (.truncatedInstruction op needed available)) := by
  simp [step, hrun, hd]

theorem exists_step_of_running (hrun : s.runState = .running) : ∃ t, step s = .next t := by
  cases hd : decode s.cfg.program s.pc with
  | endOfStream => exact ⟨_, step_of_endOfStream hrun (decode_eq_endOfStream_iff.1 hd)⟩
  | unknownOpcode op => exact ⟨_, step_of_unknownOpcode hrun hd⟩
  | truncated op needed available => exact ⟨_, step_of_truncated hrun hd⟩
  | instr i n => exact ⟨_, (step_of_decode hrun hd).trans (exec_eq_commit s i)⟩

theorem running_of_step (h : step s = .next t) : s.runState = .running := by
  obtain ⟨hrun, -⟩ := step_next_cases h
  exact hrun

/-- Settles O9: the decoder answers the end of the stream exactly where PC is not below its length. -/
theorem haltTransitionChangesOnlyRunState : Obligations.HaltTransitionChangesOnlyRunState :=
  ⟨fun _ => step_of_endOfStream, fun _ => step_of_endOfStream rfl le_rfl⟩

/-- Settles O8: the encoded bytes at PC decode to the instruction, and a step runs what is decoded. -/
theorem stepRunsTheInstructionAtPc : Obligations.StepRunsTheInstructionAtPc :=
  ⟨fun _ _ _ => step_of_decode,
    fun _ _ hrun h hbytes => step_of_decode hrun (decode_of_encode_at h hbytes)⟩

/-- Settles O12: each answer of the decoder gives a running machine a next state. -/
theorem stepIsDefinedExactlyWhenRunning : Obligations.StepIsDefinedExactlyWhenRunning :=
  fun _ => ⟨fun ⟨_, h⟩ => running_of_step h, exists_step_of_running⟩

/-! ### Where a completed instruction leaves PC (R98, R104) -/

/-- A step that leaves the machine running has advanced PC by the length the decoder answers, within the
stream. -/
theorem pc_of_completed (h : step s = .next t) (hrun : t.runState = .running) :
    ∃ i, decode s.cfg.program s.pc = .instr i i.length ∧ t.pc = s.pc + i.length ∧
      s.pc + i.length ≤ s.cfg.program.length := by
  obtain ⟨i, n, hd, -, hpc⟩ := (pcChangesInOneWayOnly s t h).1 hrun
  obtain ⟨-, rfl, hend⟩ := decodedInstructionIsWellFormed _ _ _ _ hd
  exact ⟨i, hd, hpc, hend⟩

/-- Settles O6: the completed instruction's own length, and the invariant of the reachable states. -/
theorem pcAdvancesByLengthWithinStream : Obligations.PcAdvancesByLengthWithinStream := by
  refine ⟨fun s t i n _ hd h hrun => ?_, fun s h => ?_⟩
  · obtain ⟨j, hj, hpc, hend⟩ := pc_of_completed h hrun
    obtain ⟨rfl, rfl⟩ := DecodeResult.instr.inj (hd.symm.trans hj)
    refine ⟨?_, hend⟩
    cases i <;> exact hpc
  · obtain ⟨-, -, hpc, hstatus⟩ := inv_of_reachable h
    obtain ⟨-, hhalted, -⟩ := statusLegal_iff.1 hstatus
    exact ⟨hpc, hhalted⟩

/-- Settles O15: the stream and PC alone decide the completed instruction, and so its length. -/
theorem dataDoesNotSteerThePc : Obligations.DataDoesNotSteerThePc := by
  intro s s' t t' hB hpc h h' hrun hrun'
  obtain ⟨i, hd, ht, -⟩ := pc_of_completed h hrun
  obtain ⟨i', hd', ht', -⟩ := pc_of_completed h' hrun'
  rw [← hB, ← hpc, hd] at hd'
  obtain ⟨rfl, -⟩ := DecodeResult.instr.inj hd'
  rw [ht, ht', hpc]

/-! ### Every run ends (R101) -/

theorem ne_running_iff (r : RunState) : r ≠ .running ↔ r = .halted ∨ r = .faulted := by
  cases r <;> decide

theorem stepN_succ (k : Nat) (h : step s = .next t) : stepN (k + 1) s = stepN k t := by
  simp [stepN, h]

theorem runFor_succ (k : Nat) (h : step s = .next t) : runFor (k + 1) s = runFor k t := by
  simp [runFor, h]

/-- In Halted and Faulted no transition follows (R91, R100). -/
theorem stepN_succ_of_stopped (k : Nat) (h : s.runState ≠ .running) : stepN (k + 1) s = none := by
  rw [Option.eq_none_iff_forall_ne_some]
  intro t ht
  obtain ⟨u, hstep, -⟩ := stepN_succ_eq_some ht
  exact h (running_of_step hstep)

theorem runFor_of_stopped (k : Nat) (h : s.runState ≠ .running) : runFor k s = s := by
  cases k with
  | zero => rfl
  | succ k =>
    cases hs : step s with
    | next t => exact absurd (running_of_step hs) h
    | fault r => simp [runFor, hs]
    | refused r => simp [runFor, hs]

/-- A run of transitions cut after its first `j`. -/
theorem stepN_add (j k : Nat) (s : State) : stepN (j + k) s = (stepN j s).bind (stepN k) := by
  induction j generalizing s with
  | zero => simp [stepN]
  | succ j ih =>
    rw [Nat.succ_add]
    cases hs : step s with
    | next t => rw [stepN_succ _ hs, stepN_succ _ hs, ih]
    | fault r => simp [stepN, hs]
    | refused r => simp [stepN, hs]

/-- Where transitions end in Running, each state on the way is Running: no transition leaves another. -/
theorem stepN_running_of_le {j k : Nat} (hjk : j ≤ k) (h : stepN k s = some t)
    (hrun : t.runState = .running) : ∃ x, stepN j s = some x ∧ x.runState = .running := by
  obtain ⟨m, rfl⟩ := Nat.exists_eq_add_of_le hjk
  rw [stepN_add, Option.bind_eq_some_iff] at h
  obtain ⟨x, hx, hrest⟩ := h
  refine ⟨x, hx, ?_⟩
  by_contra hstop
  cases m with
  | zero =>
    obtain rfl := Option.some.inj hrest
    exact hstop hrun
  | succ m => simp [stepN_succ_of_stopped m hstop] at hrest

/-- `runFor` goes through the states of `stepN`. -/
theorem runFor_of_stepN {k : Nat} (m : Nat) (h : stepN k s = some t) :
    runFor (k + m) s = runFor m t := by
  induction k generalizing s with
  | zero =>
    obtain rfl := Option.some.inj h
    rw [Nat.zero_add]
  | succ k ih =>
    obtain ⟨u, hstep, hrest⟩ := stepN_succ_eq_some h
    rw [Nat.succ_add, runFor_succ _ hstep, ih hrest]

/-- A running machine comes to its last transition, after completed instructions of at least 6 bytes each. -/
theorem exists_last_transition (s : State) (hrun : s.runState = .running) :
    ∃ k t u, k ≤ (s.cfg.program.length - s.pc) / 6 ∧ stepN k s = some t ∧ step t = .next u ∧
      u.runState ≠ .running := by
  obtain ⟨v, hstep⟩ := exists_step_of_running hrun
  by_cases hv : v.runState = .running
  case neg => exact ⟨0, s, v, Nat.zero_le _, rfl, hstep, hv⟩
  case pos =>
    obtain ⟨i, -, hpc, hend⟩ := pc_of_completed hstep hv
    have hlen : 6 ≤ i.length := by
      have := opcode_length_eq i.opcode
      rw [Instr.length]
      omega
    have hL : v.cfg.program.length = s.cfg.program.length := by rw [configurationIsFixed s v hstep]
    obtain ⟨k, t, u, hk, ht, hu, hstop⟩ := exists_last_transition v hv
    exact ⟨k + 1, t, u, by omega, (stepN_succ k hstep).trans ht, hu, hstop⟩
termination_by s.cfg.program.length - s.pc

/-- Settles O37: the transitions up to the last one leave the machine running, none follows it, and
`State.runBound` leaves room for it. -/
theorem everyRunEnds : Obligations.EveryRunEnds := by
  intro s hrun _
  obtain ⟨k, t, u, hk, ht, hu, hstop⟩ := exists_last_transition s hrun
  have hlast : stepN (k + 1) s = some u := by
    rw [stepN_add, ht]
    exact stepN_succ 0 hu
  have hnone : stepN (k + 2) s = none := by
    rw [stepN_add (k + 1) 1, hlast]
    exact stepN_succ_of_stopped 0 hstop
  have hfinal : s.run = u := by
    obtain ⟨m, hm⟩ := Nat.exists_eq_add_of_le (Nat.add_le_add_right hk 1)
    rw [State.run, State.runBound, hm, runFor_of_stepN m hlast, runFor_of_stopped m hstop]
  exact ⟨k, t, u, hk, fun j hj => stepN_running_of_le hj ht (running_of_step hu), ht, hu,
    (ne_running_iff _).1 hstop, hlast, hnone, hfinal⟩

end Sys2Proof.Machine

/-! SUPPORT and the proofs about the data transfer instructions (41_data_transfer.md): how the access table
decides the end of an instruction, what each instruction does where its addresses are in range, and the faults
of LoadConst, ReadMem and WriteMem. -/

namespace Sys2Proof.Machine

variable {s : State}

/-! ### The access table decides the end of an instruction (R116, R117) -/

/-- The first access out of range is the fault that the instruction takes. -/
theorem faultsOutOfRange_of_firstFailing {i : Instr} {e : AccessError} (h : s.firstFailing i = some e) :
    FaultsOutOfRange i s e.address e.kind := by
  rcases ruleOf_eq (s := s) i with ⟨e', he', hrule⟩ | ⟨hnone, -⟩
  · obtain rfl := Option.some.inj (he'.symm.trans h)
    have hexec := exec_eq_commit s i
    rwa [hrule] at hexec
  · cases hnone.symm.trans h

/-- With every access in range, the instruction completes with the write that its accesses end with. -/
theorem completesWriting_of_firstFailing {i : Instr} {c : Access} (h : s.firstFailing i = none)
    (hlast : (s.accesses i).getLast? = some c) :
    CompletesWriting i s i.length c.address.toNat c.value := by
  rcases ruleOf_eq (s := s) i with ⟨e, he, -⟩ | ⟨-, c', hlast', -, hrule⟩
  · cases he.symm.trans h
  · obtain rfl := Option.some.inj (hlast'.symm.trans hlast)
    have hexec := exec_eq_commit s i
    rw [hrule] at hexec
    exact ⟨_, hexec, by simp, rfl, rfl, rfl, rfl⟩

/-! ### Completion with every address in range -/

theorem loadConst_completes {c a : Nat} (ha : a < s.cfg.memSize) :
    CompletesWriting (.loadConst c a) s 6 a c :=
  completesWriting_of_firstFailing (i := .loadConst c a)
    (by simp [State.firstFailing, State.accesses, ha]) rfl

theorem readMem_completes {o p q ea : Nat} (hp : p < s.cfg.memSize) (hea : Memory.cell s.mem p + o = ea)
    (hsrc : ea < s.cfg.memSize) (hq : q < s.cfg.memSize) :
    CompletesWriting (.readMem o p q) s 9 q (Memory.cell s.mem ea) := by
  have hraw : s.rawEffectiveAddr p o = directAddr ea := hea
  have hnone : s.firstFailing (.readMem o p q) = none := by
    simp [State.firstFailing, State.accesses, State.readAccess, hraw, hp, hsrc, hq]
  have hdone := completesWriting_of_firstFailing hnone rfl
  rwa [hraw] at hdone

theorem gte_completes {o1 p1 p2 pr o2 ea1 ear : Nat} (hp1 : p1 < s.cfg.memSize) (hpr : pr < s.cfg.memSize)
    (hea1 : Memory.cell s.mem p1 + o1 = ea1) (hop1 : ea1 < s.cfg.memSize) (hp2 : p2 < s.cfg.memSize)
    (hear : Memory.cell s.mem pr + o2 = ear) (hres : ear < s.cfg.memSize) :
    CompletesWriting (.gte o1 p1 p2 pr o2) s 13 ear
      (if Memory.cell s.mem ea1 ≥ Memory.cell s.mem p2 then 1 else 0) := by
  have hraw1 : s.rawEffectiveAddr p1 o1 = directAddr ea1 := hea1
  have hrawr : s.rawEffectiveAddr pr o2 = directAddr ear := hear
  have hnone : s.firstFailing (.gte o1 p1 p2 pr o2) = none := by
    simp [State.firstFailing, State.accesses, State.readAccess, hraw1, hrawr, hp1, hpr, hop1, hp2, hres]
  have hdone := completesWriting_of_firstFailing hnone rfl
  rwa [hraw1, hrawr] at hdone

/-! ### The obligations -/

/-- Settles O21: each clause is the instruction's completion. -/
theorem eachInstructionCompletesInRange : Obligations.EachInstructionCompletesInRange :=
  ⟨fun _ _ _ => loadConst_completes, fun _ _ _ => writeMem_completes, fun _ _ _ _ _ => readMem_completes,
    fun _ _ _ _ _ _ _ _ => gte_completes⟩

/-- Settles O17: the one access is the write, so the address alone decides. -/
theorem loadConstWritesItsConstant : Obligations.LoadConstWritesItsConstant := by
  intro c a s
  refine ⟨rfl, rfl, loadConst_completes, fun ha => ?_⟩
  exact faultsOutOfRange_of_firstFailing (e := ⟨directAddr a, .write⟩)
    (by simp [State.firstFailing, State.accesses, ha])

/-- Settles O18: each failing check is the first access out of range; where none fails, the effective address is
a natural number below the memory size. -/
theorem readMemLoadsThroughItsBase : Obligations.ReadMemLoadsThroughItsBase := by
  intro o p q s
  refine ⟨rfl, rfl, ?_⟩
  split_ifs with hp hea hq
  · exact faultsOutOfRange_of_firstFailing (e := ⟨directAddr p, .read⟩)
      (by simp [State.firstFailing, State.accesses, State.readAccess, hp])
  · have hok : s.inRange (s.rawEffectiveAddr p o) = true := (inRange_iff s _).2 hea
    exact faultsOutOfRange_of_firstFailing (e := ⟨directAddr q, .write⟩)
      (by simp [State.firstFailing, State.accesses, State.readAccess, Nat.lt_of_not_le hp, hok, hq])
  · obtain ⟨hpos, hlt⟩ := hea
    exact readMem_completes (Nat.lt_of_not_le hp) (Int.toNat_of_nonneg hpos).symm (by omega)
      (Nat.lt_of_not_le hq)
  · have hbad : s.inRange (s.rawEffectiveAddr p o) = false := (inRange_eq_false s _).2 hea
    exact faultsOutOfRange_of_firstFailing (e := ⟨s.rawEffectiveAddr p o, .read⟩)
      (by simp [State.firstFailing, State.accesses, State.readAccess, Nat.lt_of_not_le hp, hbad])

/-- Settles O19: each failing check is the first access out of range; where none fails, the copy completes. -/
theorem writeMemCopiesCell : Obligations.WriteMemCopiesCell := by
  intro p q s
  refine ⟨rfl, rfl, ?_⟩
  split_ifs with hp hq
  · exact faultsOutOfRange_of_firstFailing (e := ⟨directAddr p, .read⟩)
      (by simp [State.firstFailing, State.accesses, State.readAccess, hp])
  · exact faultsOutOfRange_of_firstFailing (e := ⟨directAddr q, .write⟩)
      (by simp [State.firstFailing, State.accesses, State.readAccess, Nat.lt_of_not_le hp, hq])
  · exact writeMem_completes (Nat.lt_of_not_le hp) (Nat.lt_of_not_le hq)

end Sys2Proof.Machine

/-! SUPPORT and the proof about Gte (42_compare.md): its five checks in the order of R110, and the value that it
writes. -/

namespace Sys2Proof.Machine

variable {s : State}

/-- The comparator as R110 writes it. -/
theorem aluGe_eq_ite (op1 op2 : Int) : aluGe op1 op2 = if op1 ≥ op2 then 1 else 0 := rfl

/-- Gte checks both base cells, then the two operands, then the result; the first check that fails decides
(R110). -/
theorem firstFailing_gte (o1 p1 p2 pr o2 : Nat) :
    s.firstFailing (.gte o1 p1 p2 pr o2) =
      if s.cfg.memSize ≤ p1 then some ⟨directAddr p1, .read⟩
      else if s.cfg.memSize ≤ pr then some ⟨directAddr pr, .read⟩
      else if ¬(0 ≤ Memory.cell s.mem p1 + o1 ∧ Memory.cell s.mem p1 + o1 < s.cfg.memSize) then
        some ⟨Memory.cell s.mem p1 + o1, .read⟩
      else if s.cfg.memSize ≤ p2 then some ⟨directAddr p2, .read⟩
      else if ¬(0 ≤ Memory.cell s.mem pr + o2 ∧ Memory.cell s.mem pr + o2 < s.cfg.memSize) then
        some ⟨Memory.cell s.mem pr + o2, .write⟩
      else none := by
  simp only [← rawEffectiveAddr_eq, ← inRange_eq_false]
  split_ifs <;> simp [State.firstFailing, State.accesses, State.readAccess, *]

/-- Settles O20: each branch of the statement is one outcome of the five checks. -/
theorem gteWritesTheComparison : Obligations.GteWritesTheComparison := by
  intro o1 p1 p2 pr o2 s
  refine ⟨rfl, rfl, ?_⟩
  have hfirst := firstFailing_gte (s := s) o1 p1 p2 pr o2
  rw [← aluGe_eq_ite]
  split_ifs at hfirst ⊢
  · exact faultsOutOfRange_of_firstFailing hfirst
  · exact faultsOutOfRange_of_firstFailing hfirst
  · exact faultsOutOfRange_of_firstFailing hfirst
  · exact completesWriting_of_firstFailing hfirst rfl
  · exact faultsOutOfRange_of_firstFailing hfirst
  · exact faultsOutOfRange_of_firstFailing hfirst

end Sys2Proof.Machine

/-! SUPPORT and the proofs about the fatal errors (60_exceptions.md): which byte at PC raises which decode
error, that fault entry is precise, and that the first access out of range decides. -/

namespace Sys2Proof

/-- A byte names an opcode exactly where its low seven bits are the opcode's value; bit 7 is free (R72). -/
theorem ofBits_setWidth_eq_some_iff {b : Byte} {o : Opcode} :
    Opcode.ofBits (b.setWidth 7) = some o ↔ b.toNat % 128 = o.code.toNat := by
  have hlow : (b.setWidth 7).toNat = b.toNat % 128 := BitVec.toNat_setWidth 7 b
  rw [← hlow]
  refine ⟨fun h => by rw [ofBits_eq_some h], fun h => ?_⟩
  rw [BitVec.eq_of_toNat_eq h, ofBits_code]

end Sys2Proof

namespace Sys2Proof.Machine

variable {s : State}

/-! ### Decode errors (R114, R115) -/

/-- A byte at PC that names no opcode raises UnknownOpcode. -/
theorem step_of_unknown_byte {b : Byte} (hrun : s.runState = .running) (hb : s.cfg.program[s.pc]? = some b)
    (hop : Opcode.ofBits (b.setWidth 7) = none) :
    step s = .next (s.enterFault (.unknownOpcode (b.setWidth 7))) := by
  obtain ⟨hin, -⟩ := List.getElem?_eq_some_iff.1 hb
  exact step_of_unknownOpcode hrun
    (decode_eq_unknownOpcode_iff.2 ⟨hin, (opcodeAt_of_getElem hb).symm, hop⟩)

/-- A legal opcode at PC with fewer bytes left than its length raises TruncatedInstruction. -/
theorem step_of_cut_short {b : Byte} {o : Opcode} (hrun : s.runState = .running)
    (hb : s.cfg.program[s.pc]? = some b) (hop : b.toNat % 128 = o.code.toNat)
    (hend : s.cfg.program.length < s.pc + o.length) :
    step s = .next (s.enterFault
      (.truncatedInstruction (b.setWidth 7) o.length (s.cfg.program.length - s.pc))) := by
  obtain ⟨hin, -⟩ := List.getElem?_eq_some_iff.1 hb
  have hlen : (Opcode.ofBits (b.setWidth 7)).map Opcode.length = some o.length := by
    rw [ofBits_setWidth_eq_some_iff.2 hop, Option.map_some]
  exact step_of_truncated hrun
    (decode_eq_truncated_iff.2 ⟨hin, (opcodeAt_of_getElem hb).symm, hlen, by omega, by omega⟩)

/-- Settles O10: an opcode named by the byte would be one of the four values ruled out. -/
theorem unknownOpcodeIsTakenAsFault : Obligations.UnknownOpcodeIsTakenAsFault := by
  intro s b hrun hb h40 h68 h101 h111
  refine ⟨step_of_unknown_byte hrun hb (Option.eq_none_iff_forall_ne_some.2 fun o ho => ?_), rfl⟩
  have hcode := ofBits_setWidth_eq_some_iff.1 ho
  cases o with
  | loadConst => exact h111 hcode
  | gte => exact h68 hcode
  | writeMem => exact h101 hcode
  | readMem => exact h40 hcode

/-- Settles O11: each clause of the hypothesis is one opcode with its length. -/
theorem truncatedInstructionIsTakenAsFault : Obligations.TruncatedInstructionIsTakenAsFault := by
  intro s b len hrun hb hop hend
  refine ⟨?_, rfl⟩
  obtain ⟨hop, rfl⟩ | ⟨hop, rfl⟩ | ⟨hop, rfl⟩ | ⟨hop, rfl⟩ := hop
  · exact step_of_cut_short (o := .readMem) hrun hb hop hend
  · exact step_of_cut_short (o := .gte) hrun hb hop hend
  · exact step_of_cut_short (o := .writeMem) hrun hb hop hend
  · exact step_of_cut_short (o := .loadConst) hrun hb hop hend

/-! ### Fault entry and the access that decides (R117, R121) -/

/-- Settles O13: of the three ends of a step, only fault entry ends in Faulted. -/
theorem faultsArePrecise : Obligations.FaultsArePrecise := by
  intro s t h hfaulted
  obtain ⟨hrun, ⟨-, rfl⟩ | ⟨info, -, rfl⟩ | ⟨i, n, w, -, -, rfl⟩⟩ := step_next_ends h
  · cases hfaulted
  · exact ⟨info, rfl⟩
  · cases hrun.symm.trans hfaulted

/-- The access table of every instruction ends with its write (R116). -/
theorem accesses_end_with_write (s : State) (i : Instr) :
    ∃ c, (s.accesses i).getLast? = some c ∧ c.kind = .write := by
  cases i <;> exact ⟨_, rfl, rfl⟩

/-- Settles O22: the first access out of range is `State.firstFailing`, which decides the end of the
instruction. -/
theorem firstFailingAccessDecides : Obligations.FirstFailingAccessDecides := by
  intro i s
  split
  case h_1 c hc =>
    have hfirst : s.firstFailing i = some ⟨c.address, c.kind⟩ := by
      rw [State.firstFailing, hc, Option.map_some]
    exact ⟨faultsOutOfRange_of_firstFailing hfirst, rfl⟩
  case h_2 hnone =>
    have hfirst : s.firstFailing i = none := by rw [State.firstFailing, hnone, Option.map_none]
    obtain ⟨c, hlast, hwrite⟩ := accesses_end_with_write s i
    exact ⟨c, hlast, hwrite, completesWriting_of_firstFailing hfirst hlast⟩

end Sys2Proof.Machine

/-! The proof about reset (70_reset_and_hazards.md): the state after reset, part by part. -/

namespace Sys2Proof.Machine

/-- Memory after reset lists no cell, so every address reads the default 0 (R23). -/
theorem cell_resetWith (n : Nat) (B : List Byte) (a : Nat) :
    Memory.cell (State.resetWith n B).mem a = 0 := by
  rw [resetWith_mem, cell_nil]

/-- Settles O1: each part by its own law of reset. -/
theorem resetSetsEveryPart : Obligations.ResetSetsEveryPart := fun n B =>
  ⟨cell_resetWith n B, resetWith_pc n B, resetWith_runState n B, resetWith_fault n B,
    resetWith_cfg n B⟩

end Sys2Proof.Machine

/-! The proof about reset and the invariant (10_state.md, 70_reset_and_hazards.md). -/

namespace Sys2Proof.Machine

/-- Settles O2: `State.reset` is the reset of one configuration, so the general lemma gives it too. -/
theorem invariantHoldsAfterReset : Obligations.InvariantHoldsAfterReset :=
  ⟨inv_resetWith, inv_resetWith Config.memSize []⟩

end Sys2Proof.Machine
